-- ==== Sys2Proof/Word.lean ====
section
/-! DEFINITION. The words of SHA1-CORE, each with the one width the spec gives it (00_scope.md section 4,
30_encoding.md rules R70, R71, R78). Everything here is unsigned; no signed value exists in the block. -/

namespace Sys2Proof

/-- A 32-bit unsigned word (00_scope.md section 5.1). -/
abbrev Word := BitVec 32

/-- An 8-bit unsigned byte (00_scope.md section 5.1). -/
abbrev Byte := BitVec 8

/-- The 64-bit unsigned message length, in bits (10_state.md R25). -/
abbrev Len := BitVec 64

/-- A word of the command channel, format `CMD` (30_encoding.md R70). -/
abbrev CmdWord := BitVec 16

/-- A micro-operation word, format `UOP`, internal to the block (30_encoding.md R71). -/
abbrev UopWord := BitVec 11

/-- A word of the response channel (30_encoding.md R78). -/
abbrev RspWord := BitVec 36

end Sys2Proof
end

