-- ==== Sys2Proof/Syntax.lean ====
section
/-! DEFINITION. The fourteen operations of SHA1-CORE, one constructor per row of spec/opcode_table.json: five host
commands (30_encoding.md R72) and nine micro-operations (R73). An index whose range is a plain interval from 0 is a
`Fin`, so that no other index can be written down (93_implementation_defined.md U4); the one range that does not begin
at 0, that of `WEX.EXP`, is checked in WellFormed.lean. -/

namespace Sys2Proof

/-- An operation of the block. -/
inductive Instr where
  /-- `INIT`: open a new message (43_driver.md R150). -/
  | init
  /-- `PUSH b`: append the message byte `b` (40_padder.md R101). -/
  | push (b : Byte)
  /-- `FINAL`: end the message, pad it, compress the last block or blocks (40_padder.md R102). -/
  | final
  /-- `READ i`: return word `i` of the digest (43_driver.md R152). -/
  | read (i : Fin 5)
  /-- `STAT`: return the phase (43_driver.md R154). -/
  | stat
  /-- `PAD.PUTB p` with the data byte `b` carried beside the word (40_padder.md R103). -/
  | padPutb (p : Fin 64) (b : Byte)
  /-- `PAD.MARK p`: store the padding marker (40_padder.md R104). -/
  | padMark (p : Fin 64)
  /-- `PAD.ZERO p`: store one zero padding byte (40_padder.md R105). -/
  | padZero (p : Fin 64)
  /-- `PAD.LEN`: store the length field (40_padder.md R106). -/
  | padLen
  /-- `WEX.LOAD i`: copy word `i` of the block into the schedule (41_schedule.md R120). -/
  | wexLoad (i : Fin 16)
  /-- `WEX.EXP i`, `i` from 16 to 79: compute one extension word of the schedule (41_schedule.md R121). -/
  | wexExp (i : Fin 80)
  /-- `CMP.INITV`: load the working variables from the accumulator (42_compress.md R132). -/
  | cmpInitv
  /-- `CMP.RND t`: one round of mixing (42_compress.md R133). -/
  | cmpRnd (t : Fin 80)
  /-- `CMP.FOLD`: add the working variables into the accumulator (42_compress.md R135). -/
  | cmpFold
  deriving DecidableEq, Repr

/-- Is the operation a host command (30_encoding.md R72), and not a micro-operation (R73)? -/
def Instr.isCommand : Instr → Bool
  | .init | .push _ | .final | .read _ | .stat => true
  | .padPutb _ _ | .padMark _ | .padZero _ | .padLen | .wexLoad _ | .wexExp _ | .cmpInitv | .cmpRnd _ | .cmpFold => false

end Sys2Proof
end

