-- ==== Sys2Proof/WellFormed.lean ====
section
/-! DEFINITION. Which operations the encodings can name (30_encoding.md R72, R73). The types of Syntax.lean already hold
every index to its range but one: `WEX.EXP` takes an index from 16 to 79. -/

namespace Sys2Proof

/-- The operation has an encoding: every index is inside the range of 30_encoding.md R72 and R73. -/
def Instr.wellFormed : Instr → Bool
  | .wexExp i => decide (16 ≤ i.val)
  | .init | .push _ | .final | .read _ | .stat => true
  | .padPutb _ _ | .padMark _ | .padZero _ | .padLen => true
  | .wexLoad _ => true
  | .cmpInitv | .cmpRnd _ | .cmpFold => true

/-- `Instr.wellFormed` as a proposition. -/
abbrev Instr.WellFormed (i : Instr) : Prop := i.wellFormed = true

end Sys2Proof
end

