-- ==== Sys2Proof/Decode.lean ====
section
/-! DEFINITION. Decoding and encoding of the two formats, `CMD` (30_encoding.md R70, R72, R75) and `UOP` (R71, R73, R77).
A number alone does not say its format (`0x0100` is the command `INIT` and the micro-operation `PAD.ZERO 0`): a word is
told apart by the channel it stands on, so what is decoded is a word with its channel. -/

namespace Sys2Proof

/-- A word on one of the two channels that carry operations: the host's command channel, or the lines between the
sequencer and the units, where `PAD.PUTB` has its data byte beside the word (30_encoding.md R71). -/
inductive OpWord where
  | cmd (w : CmdWord)
  | uop (w : UopWord) (data : Byte)
  deriving DecidableEq, Repr

/-- Why a word names no operation. -/
inductive DecodeError where
  /-- A command word that selects no row of 30_encoding.md R72 (R75, `ILLEGAL_CMD`). -/
  | illegalCmd
  /-- A micro-operation word that matches no row of 30_encoding.md R73 (R77). -/
  | reservedUop
  deriving DecidableEq, Repr

/-- Field `op`, bits 15:8 of a command word (30_encoding.md R70). -/
def cmdOp (w : CmdWord) : Nat := w.toNat / 256

/-- Field `x`, bits 7:0 of a command word (30_encoding.md R70). -/
def cmdX (w : CmdWord) : Nat := w.toNat % 256

/-- Field `unit`, bits 10:9 of a micro-operation word (30_encoding.md R71). -/
def uopUnit (w : UopWord) : Nat := w.toNat / 512

/-- Field `uop`, bits 8:7 of a micro-operation word (30_encoding.md R71). -/
def uopOp (w : UopWord) : Nat := w.toNat / 128 % 4

/-- Field `idx`, bits 6:0 of a micro-operation word (30_encoding.md R71). -/
def uopIdx (w : UopWord) : Nat := w.toNat % 128

/-- An index inside `0 .. n-1`, or nothing. -/
def indexBelow (n idx : Nat) : Option (Fin n) :=
  if h : idx < n then some ⟨idx, h⟩ else none

/-- The command a command word selects, by `op` and then by `x` (30_encoding.md R72); nothing where it selects no row (R75). -/
def decodeCmd (w : CmdWord) : Option Instr :=
  match cmdOp w with
  | 1 => if cmdX w = 0 then some .init else none
  | 2 => some (.push (BitVec.ofNat 8 (cmdX w)))
  | 3 => if cmdX w = 0 then some .final else none
  | 4 => (indexBelow 5 (cmdX w)).map .read
  | 5 => if cmdX w = 0 then some .stat else none
  | _ => none

/-- The micro-operation a word names (30_encoding.md R73); nothing where it is reserved (R77). Only `PAD.PUTB` takes the
data byte; for the other eight the data lines carry nothing. -/
def decodeUop (w : UopWord) (data : Byte) : Option Instr :=
  match uopUnit w, uopOp w with
  | 0, 0 => (indexBelow 64 (uopIdx w)).map (.padPutb · data)
  | 0, 1 => (indexBelow 64 (uopIdx w)).map .padMark
  | 0, 2 => (indexBelow 64 (uopIdx w)).map .padZero
  | 0, 3 => if uopIdx w = 0 then some .padLen else none
  | 1, 0 => (indexBelow 16 (uopIdx w)).map .wexLoad
  | 1, 1 => if 16 ≤ uopIdx w then (indexBelow 80 (uopIdx w)).map .wexExp else none
  | 2, 0 => if uopIdx w = 0 then some .cmpInitv else none
  | 2, 1 => (indexBelow 80 (uopIdx w)).map .cmpRnd
  | 2, 2 => if uopIdx w = 0 then some .cmpFold else none
  | _, _ => none

/-- Decode a word of either channel; a word that names nothing is rejected by name. -/
def decode : OpWord → Except DecodeError Instr
  | .cmd w =>
    match decodeCmd w with
    | some i => .ok i
    | none => .error .illegalCmd
  | .uop w data =>
    match decodeUop w data with
    | some i => .ok i
    | none => .error .reservedUop

/-- A command word from its fields: `op` in bits 15:8, `x` in bits 7:0 (30_encoding.md R70). -/
def cmdWord (op x : Nat) : CmdWord := BitVec.ofNat 16 (op * 256 + x)

/-- A micro-operation word from its fields: `unit * 512 + uop * 128 + idx` (30_encoding.md R73). -/
def uopWord (unit uop idx : Nat) : UopWord := BitVec.ofNat 11 (unit * 512 + uop * 128 + idx)

/-- The word of an operation, on its channel (30_encoding.md R72, R73). -/
def encode : Instr → OpWord
  | .init => .cmd (cmdWord 1 0)
  | .push b => .cmd (cmdWord 2 b.toNat)
  | .final => .cmd (cmdWord 3 0)
  | .read i => .cmd (cmdWord 4 i.val)
  | .stat => .cmd (cmdWord 5 0)
  | .padPutb p b => .uop (uopWord 0 0 p.val) b
  | .padMark p => .uop (uopWord 0 1 p.val) 0
  | .padZero p => .uop (uopWord 0 2 p.val) 0
  | .padLen => .uop (uopWord 0 3 0) 0
  | .wexLoad i => .uop (uopWord 1 0 i.val) 0
  | .wexExp i => .uop (uopWord 1 1 i.val) 0
  | .cmpInitv => .uop (uopWord 2 0 0) 0
  | .cmpRnd t => .uop (uopWord 2 1 t.val) 0
  | .cmpFold => .uop (uopWord 2 2 0) 0

/-- The channel and the word meant by `w`, an instruction's bits as spec/opcode_table.json numbers them, where the table
gives it `nbits` bits. The two formats share numbers and the table tells them apart by width alone (16 and 11 bits). A
width of 16 may be a `CMD` row or a `UOP` row rounded up to whole bytes: it is read as a command where it is a legal
one, else as a micro-operation where it names one, else as the illegal command it is. Any other width is a `UOP` word,
with the data byte of `PAD.PUTB` (to which the table gives no bits) in bits 23:16. See notes/assumptions/5.md. -/
def tableOpWord (nbits w : Nat) : OpWord :=
  let asCmd := OpWord.cmd (BitVec.ofNat 16 w)
  let asUop := OpWord.uop (BitVec.ofNat 11 w) (BitVec.ofNat 8 (w / 65536))
  if 2048 ≤ w % 65536 then asCmd
  else if nbits = 16 ∧ ((decodeCmd (BitVec.ofNat 16 w)).isSome ∨ (decodeUop (BitVec.ofNat 11 w) 0).isNone) then asCmd
  else asUop

/-- The instruction the decoder reads from an instruction whose bits are `w`, numbered as the opcode table numbers them. -/
def decodeTableWord (nbits w : Nat) : Option Instr :=
  match decode (tableOpWord nbits w) with
  | .ok i => some i
  | .error _ => none

end Sys2Proof
end

