-- ==== Sys2Proof/Config.lean ====
section
/-! DEFINITION. The free values of the machine. The spec leaves no parameter open (92_eei_decisions.md: "No row is
`OPEN`"); the one thing it leaves without a value is what a register holds after the reset event (10_state.md R40,
93_implementation_defined.md U2: "Zeros, the previous contents, or noise", to be treated as "any value").

Each constant below has no body, so no proof can learn a value of it. Each is applied to the number of resets taken so
far (a counter in State), to the place of the register, and to what the register held before the reset, so that zeros,
the previous contents and fresh noise are all among the values it may have. See notes/assumptions/2.md. -/

namespace Sys2Proof

/-- FREE VALUE. What a 32-bit register holds after reset number `count`. Slots: 0 to 4 are `H`, 5 to 9 are `A` to `E`,
10 to 89 are `W` (10_state.md R40). -/
opaque Config.resetWord (count slot : Nat) (before : Word) : Word

/-- FREE VALUE. What `BLK[p]` holds after reset number `count` (10_state.md R40). -/
opaque Config.resetByte (count p : Nat) (before : Byte) : Byte

/-- FREE VALUE. What `LEN` holds after reset number `count` (10_state.md R40). -/
opaque Config.resetLen (count : Nat) (before : Len) : Len

end Sys2Proof
end

