-- ==== Sys2Proof/Machine/State.lean ====
section
/-! DEFINITION. The whole state of SHA1-CORE (10_state.md section 1) and, beside it, five fields of the MODEL's own: the
two channels at the block's edge with the history of what the host has taken, the lines on which a micro-operation word
stands, and the number of resets taken (on which the free values of Config.lean depend). `IV` and `K` are wiring, written by nothing: they are constants
(Machine/Ops.lean), not fields. -/

namespace Sys2Proof.Machine

/-- `PHASE` (10_state.md R30): three values; the encoding 3 of the 2-bit register is never reached and has none. -/
inductive Phase where
  /-- 0: no message open, no digest held. -/
  | idle
  /-- 1: a message is open. -/
  | absorb
  /-- 2: the last message is complete and `H` is its digest. -/
  | done
  deriving DecidableEq, Repr

/-- The response codes the block produces (30_encoding.md R78, 60_exceptions.md R171); codes 4 to 15 are never produced. -/
inductive Code where
  | ok
  | illegalCmd
  | badPhase
  | lenOverflow
  deriving DecidableEq, Repr

/-- The one response to a command (30_encoding.md R78). -/
structure Response where
  code : Code
  data : Word
  deriving DecidableEq, Repr

/-- What the host does to the block from outside (43_driver.md R160). -/
inductive HostEvent where
  /-- It presents a command word (30_encoding.md R76). -/
  | command (w : CmdWord)
  /-- It takes the response that stands on the response channel (43_driver.md R160). -/
  | take
  /-- It asserts and releases `rst` (70_reset_and_hazards.md R190). -/
  | reset
  deriving DecidableEq, Repr

/-- The block register `BLK`, the only byte-addressed memory of the block (00_scope.md section 5.2, 10_state.md R24):
pairs of an address 0 to 63 and a byte, addresses strictly rising, no entry equal to what an unlisted address reads as. -/
abbrev Mem := List Host.Cell

/-- The state of the machine. -/
structure State where
  /-- Accumulator `H[0..4]`; the digest when `phase = done` (10_state.md R20). -/
  h : Vector Word 5
  /-- Working variable `A` (10_state.md R21). -/
  a : Word
  /-- Working variable `B` (10_state.md R21). -/
  b : Word
  /-- Working variable `C` (10_state.md R21). -/
  c : Word
  /-- Working variable `D` (10_state.md R21). -/
  d : Word
  /-- Working variable `E` (10_state.md R21). -/
  e : Word
  /-- Message schedule `W[0..79]` (10_state.md R23). -/
  w : Vector Word 80
  /-- Block register `BLK[0..63]` (10_state.md R24). -/
  blk : Mem
  /-- Message length so far, in bits (10_state.md R25). -/
  len : Len
  /-- Sequencing state `PHASE` (10_state.md R30). -/
  phase : Phase
  /-- MODEL'S OWN. The micro-operation word, with its data byte, standing on the lines between the sequencer and the
  units (30_encoding.md R71); `none` between any two commands. Every command empties it before it ends; it is here so
  that a single micro-operation can be applied to a state (93_implementation_defined.md U5). -/
  uop : Option (UopWord × Byte)
  /-- MODEL'S OWN. The command channel with the reset input: what the host does next, oldest first (30_encoding.md R76). -/
  inbox : List HostEvent
  /-- MODEL'S OWN. The response channel: the response that stands there until the host takes it; while one does, the block
  takes no command (30_encoding.md R76, R78; 43_driver.md R160). -/
  pending : Option Response
  /-- MODEL'S OWN. The responses the host has taken so far, oldest first; no operation reads them. -/
  rsps : List Response
  /-- MODEL'S OWN. How many reset events have been taken: the counter the free values of Config.lean are applied to. -/
  resets : Nat
  deriving DecidableEq, Repr

/-- Why a run stops with a fault: never. "No micro-operation can fault, and an accepted command always completes"
(60_exceptions.md R176); "The compression engine has no failure" (42_compress.md R137). The type has no constructor. -/
inductive Fault where
  deriving DecidableEq, Repr

/-- Why a step has no meaning. -/
inductive Refusal where
  /-- Raised only by an arm of `exec` whose instruction has no meaning yet; safe. -/
  | notModelled (mnemonic : String)
  /-- Raised by `step` when the word on the micro-operation lines names no micro-operation, and by `WEX.EXP` with an
  index below 16, which no word encodes (30_encoding.md R77: "no behaviour is defined for them"; 93_implementation_defined.md
  U4: "refuse"); safe. -/
  | reservedUop
  deriving DecidableEq, Repr

/-- The outcome of a step of this machine. -/
abbrev Result := Host.Outcome State Fault Refusal

/-- The machine right after power-on reset (10_state.md R40, 70_reset_and_hazards.md R190): `PHASE = IDLE`, no command
pending, no response owed. The spec gives `H`, `A` to `E`, `W`, `BLK` and `LEN` no value here ("unspecified"): the zeros
below are a DESIGN CHOICE of the model, unsafe (notes/assumptions/1.md). -/
def State.reset : State where
  h := Vector.replicate 5 0
  a := 0
  b := 0
  c := 0
  d := 0
  e := 0
  w := Vector.replicate 80 0
  blk := []
  len := 0
  phase := .idle
  uop := none
  inbox := []
  pending := none
  rsps := []
  resets := 0

/-- The state with the accumulator replaced. -/
def State.setH (s : State) (h : Vector Word 5) : State := { s with h := h }

/-- The state with the five working variables replaced, all at once. -/
def State.setVars (s : State) (a b c d e : Word) : State := { s with a := a, b := b, c := c, d := d, e := e }

/-- The state with the schedule replaced. -/
def State.setW (s : State) (w : Vector Word 80) : State := { s with w := w }

/-- The state with the block register replaced. -/
def State.setBlk (s : State) (m : Mem) : State := { s with blk := m }

/-- The state with the message length replaced. -/
def State.setLen (s : State) (n : Len) : State := { s with len := n }

/-- The state with the phase replaced. -/
def State.setPhase (s : State) (p : Phase) : State := { s with phase := p }

/-- The state with the micro-operation lines replaced. -/
def State.setUop (s : State) (u : Option (UopWord × Byte)) : State := { s with uop := u }

/-- The state with the command channel replaced. -/
def State.setInbox (s : State) (l : List HostEvent) : State := { s with inbox := l }

/-- The state with a response put on the response channel. -/
def State.giveRsp (s : State) (r : Response) : State := { s with pending := some r }

/-- The state after the host has taken the response on the channel, if one stands there. -/
def State.takeRsp (s : State) : State := { s with pending := none, rsps := s.rsps ++ s.pending.toList }

/-- The state with the response channel emptied, its response forgotten (70_reset_and_hazards.md R191). -/
def State.dropRsp (s : State) : State := { s with pending := none }

/-- Every response the block has given and the host has not forgotten, oldest first. -/
def State.responses (s : State) : List Response := s.rsps ++ s.pending.toList

/-- The state with the number of resets replaced. -/
def State.setResets (s : State) (n : Nat) : State := { s with resets := n }

end Sys2Proof.Machine
end

