-- ==== Sys2Proof/Machine/Ops.lean ====
section
/-! DEFINITION. The named operations every meaning is written over: the byte-addressed memory `BLK`, the arithmetic
primitives, the wired constants, the response, the REJECTION of a command (this hardware's only "exception": it saves
nothing and goes nowhere, 60_exceptions.md R170, R179, so there is no return from it), and the reset event. -/

namespace Sys2Proof.Machine

/-! ## `BLK` as a byte memory (00_scope.md section 5.2, 20_memory.md R50 to R52) -/

/-- What an address of `BLK` that the list does not name reads as. The spec gives `BLK` no contents after reset
(10_state.md R40): DESIGN CHOICE, unsafe (notes/assumptions/1.md). -/
def unlisted : Byte := 0

/-- How many bytes `BLK` has (10_state.md R24). -/
def blkSize : Nat := 64

/-- The canonical form from address `lo` on: addresses rise strictly and stay inside `BLK`, no entry equals `unlisted`. -/
def memWfFrom (lo : Nat) : Mem → Bool
  | [] => true
  | (a, v) :: m => decide (lo ≤ a) && decide (a < blkSize) && decide (v ≠ unlisted) && memWfFrom (a + 1) m

/-- The one canonical form of `BLK`'s contents. -/
def memWf (m : Mem) : Bool := memWfFrom 0 m

/-- `MemRead(a, 1)`: the byte at address `a`. -/
def readByte : Mem → Nat → Byte
  | [], _ => unlisted
  | (b, v) :: m, a => if b = a then v else readByte m a

/-- `MemWrite(a, 1, v)`: the memory with byte `a` replaced, in canonical form. -/
def writeByte : Mem → Nat → Byte → Mem
  | [], a, v => if v = unlisted then [] else [(a, v)]
  | (b, u) :: m, a, v =>
    if a < b then (if v = unlisted then (b, u) :: m else (a, v) :: (b, u) :: m)
    else if a = b then (if v = unlisted then m else (a, v) :: m)
    else (b, u) :: writeByte m a v

/-- Four bytes as a word, the first the most significant (20_memory.md R50). -/
def be32 (b0 b1 b2 b3 : Byte) : Word := b0 ++ b1 ++ b2 ++ b3

/-- `MemRead(a, 4)`: the big-endian word at address `a`; `BLKW[i]` is `readWord m (4 * i)` (20_memory.md R52). -/
def readWord (m : Mem) (a : Nat) : Word :=
  be32 (readByte m a) (readByte m (a + 1)) (readByte m (a + 2)) (readByte m (a + 3))

/-- `MemRead(a, 8)`: the big-endian 64-bit value at address `a` (00_scope.md section 5.2). -/
def readDword (m : Mem) (a : Nat) : Len := readWord m a ++ readWord m (a + 4)

/-- Byte `k` of a 64-bit value, byte 0 the most significant: `v[63 - 8k : 56 - 8k]` (20_memory.md R51). -/
def dwordByte (v : Len) (k : Nat) : Byte := v.extractLsb' (56 - 8 * k) 8

/-- `MemWrite(a, 8, v)`: the eight bytes of `v`, most significant first, from address `a` (20_memory.md R51). -/
def writeDword (m : Mem) (a : Nat) (v : Len) : Mem :=
  (List.range 8).foldl (fun m k => writeByte m (a + k) (dwordByte v k)) m

/-- The word view `BLKW[0..15]` (20_memory.md R52, 30_encoding.md R80). -/
def blkWords (m : Mem) : Vector Word 16 := Vector.ofFn fun i => readWord m (4 * i.val)

/-! ## Arithmetic primitives (00_scope.md R1 to R4) -/

/-- Word addition modulo `2^32`; the carry is lost (00_scope.md R1). -/
def add32 (x y : Word) : Word := x + y

/-- Rotate left, defined only for `0 < n < 32` (00_scope.md R2, R3; 93_implementation_defined.md U3): the right shift
inside it is logical. -/
def rotl (x : Word) (n : Nat) (_amount : 0 < n ∧ n < 32) : Word := x <<< n ||| x >>> (32 - n)

/-! ## Wired constants -/

/-- `IV[0..4]` (10_state.md R26). -/
def iv : Vector Word 5 := #v[0x67452301, 0xEFCDAB89, 0x98BADCFE, 0x10325476, 0xC3D2E1F0]

/-- `K[0..3]` (10_state.md R27). -/
def roundConstants : Vector Word 4 := #v[0x5A827999, 0x6ED9EBA1, 0x8F1BBCDC, 0xCA62C1D6]

/-- The padding marker byte (40_padder.md R104). -/
def marker : Byte := 0x80

/-- The largest legal `LEN`, `2^64 - 8` (60_exceptions.md R174, 92_eei_decisions.md D6). -/
def lenMax : Len := 0xFFFFFFFFFFFFFFF8

/-! ## Views of the small types as the spec's numbers -/

/-- The 2-bit encoding of `PHASE` (10_state.md R30). -/
def Phase.code : Phase → BitVec 2
  | .idle => 0
  | .absorb => 1
  | .done => 2

/-- The 4-bit response code (30_encoding.md R78). -/
def Code.bits : Code → BitVec 4
  | .ok => 0
  | .illegalCmd => 1
  | .badPhase => 2
  | .lenOverflow => 3

/-- The 36-bit response word: `code` in bits 35:32, `data` in bits 31:0 (30_encoding.md R78). -/
def Response.word (r : Response) : RspWord := r.code.bits ++ r.data

/-- The `STAT` word: `PHASE` in bits 1:0, zero above (10_state.md R31). -/
def statWord (p : Phase) : Word := p.code.setWidth 32

/-! ## Response, rejection, reset -/

/-- `respond(code, data)`: the one response to the command under execution, which then stands on the response channel until the
host takes it (30_encoding.md R76, R78). `step` runs a command only while the channel is empty. -/
def respond (code : Code) (data : Word) (s : State) : State := s.giveRsp ⟨code, data⟩

/-- `raise <Code>`: the command is rejected. Nothing changes but the response channel, which gets the code and zero data
(60_exceptions.md R170). -/
def reject (code : Code) (s : State) : State := respond code 0 s

/-- The answer to a word that selects no command: `ILLEGAL_CMD`, whatever the phase (60_exceptions.md R172). -/
def rejectIllegal (s : State) : State := reject .illegalCmd s

/-- `H` after a reset event: unspecified, so a free value (10_state.md R40, 93_implementation_defined.md U2). -/
def freeH (s : State) : Vector Word 5 := Vector.ofFn fun i => Config.resetWord s.resets i.val s.h[i.val]

/-- `W` after a reset event: unspecified, so a free value (10_state.md R40). -/
def freeW (s : State) : Vector Word 80 := Vector.ofFn fun i => Config.resetWord s.resets (10 + i.val) s.w[i.val]

/-- `BLK` after a reset event: unspecified, so a free value (10_state.md R40). -/
def freeBlk (s : State) : Mem :=
  (List.range blkSize).foldl (fun m p => writeByte m p (Config.resetByte s.resets p (readByte s.blk p))) []

/-- The reset event between two commands (70_reset_and_hazards.md R190, R191): `PHASE <- IDLE`, every other register
holds an unspecified value. No response is owed: one that the host has not taken is forgotten; what it has taken stays taken
(notes/assumptions/7.md). -/
def takeReset (s : State) : State :=
  let n := s.resets
  (((((s.setH (freeH s)).setVars
    (Config.resetWord n 5 s.a) (Config.resetWord n 6 s.b) (Config.resetWord n 7 s.c)
    (Config.resetWord n 8 s.d) (Config.resetWord n 9 s.e)).setW (freeW s)).setBlk (freeBlk s)).setLen
      (Config.resetLen n s.len)).setPhase .idle |>.dropRsp |>.setResets (n + 1)

/-! ## Waiting for the host -/

/-- What can happen while a response stands on the response channel. -/
inductive Standing where
  /-- The host does nothing more: the block waits. -/
  | wait
  /-- The host takes the response; `rest` is what it does besides. -/
  | taken (rest : List HostEvent)
  /-- The host asserts reset first; `rest` is what it does afterwards. -/
  | reset (rest : List HostEvent)
  deriving DecidableEq, Repr

/-- What the host does next while a response stands there (43_driver.md R160: "the block takes no further command until it
has"; 30_encoding.md R76): the commands it has presented wait, in their order, for it to take the response. A reset wins over
them: commands presented before it and not taken are gone, since "No command is pending after reset"
(70_reset_and_hazards.md R190; notes/assumptions/6.md). -/
def standing : List HostEvent → Standing
  | [] => .wait
  | .take :: rest => .taken rest
  | .reset :: rest => .reset rest
  | .command w :: rest =>
    match standing rest with
    | .wait => .wait
    | .taken l => .taken (.command w :: l)
    | .reset l => .reset l

/-- The state with a word placed where `step` takes its next operation from: a command at the head of the command
channel, with no response standing in its way (the host takes that one as it presents the word); a micro-operation on the lines
between the sequencer and the units. -/
def placeWord (s : State) : OpWord → State
  | .cmd w => ((s.setUop none).takeRsp).setInbox (.command w :: s.inbox)
  | .uop w data => s.setUop (some (w, data))

end Sys2Proof.Machine
end

