-- ==== Sys2Proof/Machine/Operands.lean ====
section
/-! DEFINITION. The operand forms of the operations. Two operands come from the command word itself and need nothing here
(the byte of `PUSH`, the index of `READ`, 30_encoding.md R72); the others are computed: the byte position from `LEN`, the
word of a round's quartile, the four taps of the schedule. -/

namespace Sys2Proof.Machine

/-- `POS = LEN[8:3]`, 0 to 63: how many message bytes are in `BLK`, and the next free position (10_state.md R25). -/
def pos (n : Len) : Fin 64 := ⟨(n.extractLsb' 3 6).toNat, (n.extractLsb' 3 6).isLt⟩

/-- `NBLK = LEN[63:9]`: how many whole blocks of message have been consumed (10_state.md R25); no operation reads it. -/
def nblk (n : Len) : Nat := (n.extractLsb' 9 55).toNat

/-- The quartile of a round, `t div 20` (42_compress.md R130, R131). -/
def quartile (t : Fin 80) : Fin 4 := ⟨t.val / 20, by have := t.isLt; omega⟩

/-- `K[t div 20]` (42_compress.md R131). -/
def roundConstant (t : Fin 80) : Word := roundConstants[(quartile t).val]

/-- The round function `f(t, b, c, d)` (42_compress.md R130). -/
def roundF (t : Fin 80) (b c d : Word) : Word :=
  match quartile t with
  | 0 => (b &&& c) ||| (~~~b &&& d)
  | 1 => b ^^^ c ^^^ d
  | 2 => (b &&& c) ||| (b &&& d) ||| (c &&& d)
  | 3 => b ^^^ c ^^^ d

/-- `W[i-3] XOR W[i-8] XOR W[i-14] XOR W[i-16]`, rotated left by 1, for `i` from 16 (41_schedule.md R121). -/
def extensionWord (w : Vector Word 80) (i : Fin 80) (h : 16 ≤ i.val) : Word :=
  have := i.isLt
  rotl (w[i.val - 3] ^^^ w[i.val - 8] ^^^ w[i.val - 14] ^^^ w[i.val - 16]) 1 (by decide)

/-- `TEMP` of a round: `rotl(A, 5) + f(t, B, C, D) + E + K[t div 20] + W[t]` (42_compress.md R133, 10_state.md R28). -/
def roundTemp (t : Fin 80) (wt a b c d e : Word) : Word :=
  add32 (add32 (add32 (add32 (rotl a 5 (by decide)) (roundF t b c d)) e) (roundConstant t)) wt

end Sys2Proof.Machine
end

