-- ==== Sys2Proof/Machine/Flags.lean ====
section
/-! DEFINITION. The block has no status flags and no condition codes (10_state.md R33): no operation records a carry, an
overflow, a zero result or a sign. What stands in their place is the table of R33, the conditions the sequencer tests,
each read directly from state. -/

namespace Sys2Proof.Machine

/-- `POS = 63`: the byte now stored completes the block; tested by `PUSH` (10_state.md R33). -/
def blockFull (p : Fin 64) : Bool := p.val == 63

/-- `POS >= 56`: no room for the length field after the marker; tested by `FINAL` (10_state.md R33, 40_padder.md R102). -/
def noRoomForLength (p : Fin 64) : Bool := decide (p.val + 1 > 56)

/-- `LEN = 2^64 - 8`: one more byte would overflow the length; tested by `PUSH` (10_state.md R33, 60_exceptions.md R174). -/
def lenAtMax (n : Len) : Bool := n == lenMax

end Sys2Proof.Machine
end

