-- ==== Sys2Proof/Machine/Driver.lean ====
section
/-! DEFINITION. The host commands of the sequencer, `INIT`, `READ` and `STAT` (43_driver.md section 1). -/

namespace Sys2Proof.Machine

/-- What an accepted `INIT` does before it responds (43_driver.md R150). -/
def openMessage (s : State) : State := ((s.setH iv).setLen 0).setPhase .absorb

/-- Meaning of `INIT` (43_driver.md R150). -/
def execInit (s : State) : Result :=
  if s.phase = .absorb then .next (reject .badPhase s)
  else .next (respond .ok 0 (openMessage s))

/-- Meaning of `READ i` (43_driver.md R152). -/
def execRead (i : Fin 5) (s : State) : Result :=
  if s.phase ≠ .done then .next (reject .badPhase s)
  else .next (respond .ok s.h[i.val] s)

/-- Meaning of `STAT` (43_driver.md R154): accepted in every phase. -/
def execStat (s : State) : Result := .next (respond .ok (statWord s.phase) s)

end Sys2Proof.Machine
end

