-- ==== Sys2Proof/Machine/Compress.lean ====
section
/-! DEFINITION. The compression engine CMP: `CMP.INITV`, `CMP.RND`, `CMP.FOLD` (42_compress.md). Each right side takes
its values from the state before the operation (the `parallel` of the spec's pseudocode, R139). -/

namespace Sys2Proof.Machine

/-- `parallel { A <- H[0]; B <- H[1]; C <- H[2]; D <- H[3]; E <- H[4] }` (42_compress.md R132). -/
def unitInitv (s : State) : State := s.setVars s.h[0] s.h[1] s.h[2] s.h[3] s.h[4]

/-- `parallel { E <- D; D <- C; C <- rotl(B, 30); B <- A; A <- TEMP }` (42_compress.md R133). -/
def unitRnd (t : Fin 80) (s : State) : State :=
  s.setVars (roundTemp t s.w[t.val] s.a s.b s.c s.d s.e) s.a (rotl s.b 30 (by decide)) s.c s.d

/-- `H[k] <- H[k] + (A, B, C, D, E)[k]`, five independent additions (42_compress.md R135). -/
def unitFold (s : State) : State :=
  s.setH #v[add32 s.h[0] s.a, add32 s.h[1] s.b, add32 s.h[2] s.c, add32 s.h[3] s.d, add32 s.h[4] s.e]

/-- Meaning of `CMP.INITV` (42_compress.md R132). -/
def execCmpInitv (s : State) : Result := .next (unitInitv s)

/-- Meaning of `CMP.RND t` (42_compress.md R133). -/
def execCmpRnd (t : Fin 80) (s : State) : Result := .next (unitRnd t s)

/-- Meaning of `CMP.FOLD` (42_compress.md R135). -/
def execCmpFold (s : State) : Result := .next (unitFold s)

end Sys2Proof.Machine
end

