-- ==== Sys2Proof/Machine/PadUnit.lean ====
section
/-! DEFINITION. The micro-operations of the padder PAD: `PAD.PUTB`, `PAD.MARK`, `PAD.ZERO`, `PAD.LEN` (40_padder.md
section 3). -/

namespace Sys2Proof.Machine

/-- `BLK[p] <- b` (40_padder.md R103). -/
def unitPutb (p : Fin 64) (b : Byte) (s : State) : State := s.setBlk (writeByte s.blk p.val b)

/-- `BLK[p] <- 0x80` (40_padder.md R104). -/
def unitMark (p : Fin 64) (s : State) : State := s.setBlk (writeByte s.blk p.val marker)

/-- `BLK[p] <- 0x00` (40_padder.md R105). -/
def unitZero (p : Fin 64) (s : State) : State := s.setBlk (writeByte s.blk p.val 0)

/-- `MemWrite(56, 8, LEN)` (40_padder.md R106, 20_memory.md R51). -/
def unitLen (s : State) : State := s.setBlk (writeDword s.blk 56 s.len)

/-- Meaning of `PAD.PUTB p` with data byte `b` (40_padder.md R103). -/
def execPadPutb (p : Fin 64) (b : Byte) (s : State) : Result := .next (unitPutb p b s)

/-- Meaning of `PAD.MARK p` (40_padder.md R104). -/
def execPadMark (p : Fin 64) (s : State) : Result := .next (unitMark p s)

/-- Meaning of `PAD.ZERO p` (40_padder.md R105). -/
def execPadZero (p : Fin 64) (s : State) : Result := .next (unitZero p s)

/-- Meaning of `PAD.LEN` (40_padder.md R106). -/
def execPadLen (s : State) : Result := .next (unitLen s)

end Sys2Proof.Machine
end

