-- ==== Sys2Proof/Machine/Schedule.lean ====
section
/-! DEFINITION. The schedule expander WEX: `WEX.LOAD` and `WEX.EXP` (41_schedule.md). -/

namespace Sys2Proof.Machine

/-- `W[i] <- MemRead(4*i, 4)` (41_schedule.md R120). -/
def unitLoad (i : Fin 16) (s : State) : State :=
  s.setW (s.w.set i.val (readWord s.blk (4 * i.val)) (by have := i.isLt; omega))

/-- `W[i] <- rotl(W[i-3] XOR W[i-8] XOR W[i-14] XOR W[i-16], 1)` (41_schedule.md R121). -/
def unitExp (i : Fin 80) (h : 16 ≤ i.val) (s : State) : State :=
  s.setW (s.w.set i.val (extensionWord s.w i h) i.isLt)

/-- Meaning of `WEX.LOAD i` (41_schedule.md R120). -/
def execWexLoad (i : Fin 16) (s : State) : Result := .next (unitLoad i s)

/-- Meaning of `WEX.EXP i` (41_schedule.md R121); an index below 16 names no operation (30_encoding.md R77). -/
def execWexExp (i : Fin 80) (s : State) : Result :=
  if h : 16 ≤ i.val then .next (unitExp i h s) else .refused .reservedUop

end Sys2Proof.Machine
end

