-- ==== Sys2Proof/Machine/Sequencer.lean ====
section
/-! DEFINITION. The sequencer SEQ as far as it issues micro-operations: the nine micro-operations as a type of their own
whose indices cannot leave their ranges (93_implementation_defined.md U4), what each does, and the sequences that the
commands issue, written as lists so that their order and number can be stated (43_driver.md R153, 40_padder.md R101,
R102). -/

namespace Sys2Proof.Machine

/-- A micro-operation the sequencer can issue (30_encoding.md R73). -/
inductive MicroOp where
  | putb (p : Fin 64) (b : Byte)
  | mark (p : Fin 64)
  | zero (p : Fin 64)
  | len
  | load (i : Fin 16)
  | exp (i : { i : Fin 80 // 16 ≤ i.val })
  | initv
  | rnd (t : Fin 80)
  | fold
  deriving DecidableEq, Repr

/-- The row of the opcode table a micro-operation is. -/
def MicroOp.toInstr : MicroOp → Instr
  | .putb p b => .padPutb p b
  | .mark p => .padMark p
  | .zero p => .padZero p
  | .len => .padLen
  | .load i => .wexLoad i
  | .exp i => .wexExp i.val
  | .initv => .cmpInitv
  | .rnd t => .cmpRnd t
  | .fold => .cmpFold

/-- What a micro-operation does to the state; none can fail (60_exceptions.md R176). -/
def MicroOp.perform : MicroOp → State → State
  | .putb p b => unitPutb p b
  | .mark p => unitMark p
  | .zero p => unitZero p
  | .len => unitLen
  | .load i => unitLoad i
  | .exp i => unitExp i.val i.property
  | .initv => unitInitv
  | .rnd t => unitRnd t
  | .fold => unitFold

/-- `issue`: perform micro-operations one after another, each completely before the next (00_scope.md section 5.2,
20_memory.md R61). -/
def issue (ops : List MicroOp) (s : State) : State := ops.foldl (fun s u => u.perform s) s

/-- `PAD.ZERO` for every position from `lo` to `hi`, in ascending order; empty where `hi < lo` (40_padder.md R102). -/
def zeroOps (lo hi : Nat) : List MicroOp :=
  ((List.finRange 64).filter fun p => decide (lo ≤ p.val) && decide (p.val ≤ hi)).map .zero

/-- `WEX.LOAD 0` to `WEX.LOAD 15` (43_driver.md R153). -/
def loadOps : List MicroOp := (List.finRange 16).map .load

/-- `WEX.EXP 16` to `WEX.EXP 79` (43_driver.md R153). -/
def expOps : List MicroOp := (List.finRange 64).map fun k => .exp ⟨⟨16 + k.val, by omega⟩, by simp⟩

/-- `CMP.RND 0` to `CMP.RND 79` (43_driver.md R153, 42_compress.md R134). -/
def rndOps : List MicroOp := (List.finRange 80).map .rnd

/-- `SEQ.BLOCK`: the fixed sequence that compresses the block in `BLK` (43_driver.md R153). -/
def seqBlock : List MicroOp := loadOps ++ expOps ++ [.initv] ++ rndOps ++ [.fold]

/-- The micro-operations `PUSH b` issues with `p = LEN[8:3]` before it counts the byte (40_padder.md R101). -/
def pushStoreOps (p : Fin 64) (b : Byte) : List MicroOp := [.putb p b]

/-- The micro-operations `PUSH` issues after it has counted the byte (40_padder.md R101). -/
def pushBlockOps (p : Fin 64) : List MicroOp := if blockFull p then seqBlock else []

/-- The micro-operations `FINAL` issues with `p = LEN[8:3]` (40_padder.md R102). -/
def finalOps (p : Fin 64) : List MicroOp :=
  [.mark p] ++
  (if noRoomForLength p then zeroOps (p.val + 1) 63 ++ seqBlock ++ zeroOps 0 55 else zeroOps (p.val + 1) 55) ++
  [.len] ++ seqBlock

end Sys2Proof.Machine
end

