-- ==== Sys2Proof/Machine/Padder.lean ====
section
/-! DEFINITION. The host commands of the padder, `PUSH` and `FINAL` (40_padder.md section 2). -/

namespace Sys2Proof.Machine

/-- What an accepted `PUSH b` does before it responds (40_padder.md R101). -/
def pushByte (b : Byte) (s : State) : State :=
  let p := pos s.len
  let s1 := issue (pushStoreOps p b) s
  let s2 := s1.setLen (s1.len + 8)
  issue (pushBlockOps p) s2

/-- Meaning of `PUSH b` (40_padder.md R101): the phase is tested first, then the length. -/
def execPush (b : Byte) (s : State) : Result :=
  if s.phase ≠ .absorb then .next (reject .badPhase s)
  else if lenAtMax s.len then .next (reject .lenOverflow s)
  else .next (respond .ok 0 (pushByte b s))

/-- What an accepted `FINAL` does before it responds (40_padder.md R102). -/
def finishMessage (s : State) : State := (issue (finalOps (pos s.len)) s).setPhase .done

/-- Meaning of `FINAL` (40_padder.md R102). -/
def execFinal (s : State) : Result :=
  if s.phase ≠ .absorb then .next (reject .badPhase s)
  else .next (respond .ok 0 (finishMessage s))

end Sys2Proof.Machine
end

