-- ==== Sys2Proof/Machine/Dispatch.lean ====
section
/-! DEFINITION. The dispatch: one arm per constructor of Instr. -/

namespace Sys2Proof.Machine

def exec (i : Instr) (s : State) : Host.Outcome State Fault Refusal :=
  match i with
  | .init => Sys2Proof.Machine.execInit s
  | .push b => Sys2Proof.Machine.execPush b s
  | .final => Sys2Proof.Machine.execFinal s
  | .read k => Sys2Proof.Machine.execRead k s
  | .stat => Sys2Proof.Machine.execStat s
  | .padPutb p b => Sys2Proof.Machine.execPadPutb p b s
  | .padMark p => Sys2Proof.Machine.execPadMark p s
  | .padZero p => Sys2Proof.Machine.execPadZero p s
  | .padLen => Sys2Proof.Machine.execPadLen s
  | .wexLoad k => Sys2Proof.Machine.execWexLoad k s
  | .wexExp k => Sys2Proof.Machine.execWexExp k s
  | .cmpInitv => Sys2Proof.Machine.execCmpInitv s
  | .cmpRnd t => Sys2Proof.Machine.execCmpRnd t s
  | .cmpFold => Sys2Proof.Machine.execCmpFold s

end Sys2Proof.Machine
end

