-- ==== Sys2Proof/Machine/Step.lean ====
section
/-! DEFINITION. One step: the block takes one thing that is offered to it and performs all of it (92_eei_decisions.md D1:
"Its steps are host commands; each command is atomic"). Where nothing is offered it waits, holding its state
(60_exceptions.md R183); where the response to the last command still stands on the response channel it takes no further
command until the host has taken it (43_driver.md R160). -/

namespace Sys2Proof.Machine

/-- One step of the machine. A micro-operation standing on the lines goes first: none stands there between commands. Taking a
response where none stands does nothing (notes/assumptions/6.md). -/
def step (s : State) : Host.Outcome State Fault Refusal :=
  match s.uop with
  | some (w, data) =>
    match decode (.uop w data) with
    | .ok i => exec i (s.setUop none)
    | .error _ => .refused .reservedUop
  | none =>
    match s.pending with
    | some _ =>
      match standing s.inbox with
      | .wait => .next s
      | .taken rest => .next (s.takeRsp.setInbox rest)
      | .reset rest => .next (takeReset (s.setInbox rest))
    | none =>
      match s.inbox with
      | [] => .next s
      | .take :: rest => .next (s.setInbox rest)
      | .reset :: rest => .next (takeReset (s.setInbox rest))
      | .command w :: rest =>
        match decode (.cmd w) with
        | .ok i => exec i (s.setInbox rest)
        | .error _ => .next (rejectIllegal (s.setInbox rest))

/-- The state with the instruction whose bits are `w` (numbered as spec/opcode_table.json numbers them) placed where
`step` takes its next operation from. The block has no program counter and no program (10_state.md R30): a command comes
from the host (notes/assumptions/3.md) and a micro-operation stands on the internal lines (notes/assumptions/4.md). -/
def State.withFetchWord (s : State) (nbits w : Nat) : State := placeWord s (tableOpWord nbits w)

/-- `k` steps one after another, stopping at a fault or a refusal. -/
def run : Nat → State → Result
  | 0, s => .next s
  | k + 1, s =>
    match step s with
    | .next t => run k t
    | .fault r => .fault r
    | .refused r => .refused r

end Sys2Proof.Machine
end

