-- ==== Sys2Proof/Machine/Assembler.lean ====
section
/-! DEFINITION. The command syntax, the pseudo-instructions and the micro-operation trace syntax (30_encoding.md R83 to
R85). They have no hardware meaning: they turn text into the command words that the host presents, and micro-operations
into text. Text is a list of characters here, one line at a time. -/

namespace Sys2Proof.Machine

/-- One line of a program (30_encoding.md R83, R84). An operand that is out of range can be written; it does not assemble. -/
inductive AsmLine where
  | init
  | push (n : Nat)
  | final
  | read (i : Nat)
  | stat
  /-- `.word n`: any command word, whatever it decodes to. -/
  | word (n : Nat)
  /-- `MSG "text"`. -/
  | msg (text : List Char)
  /-- `MSGX h0 h1 ...`. -/
  | msgx (bytes : List Byte)
  /-- `FILL n, b`. -/
  | fill (n b : Nat)
  | digest
  /-- A line that holds nothing but spaces and a comment. -/
  | blank
  deriving DecidableEq, Repr

/-- Printable ASCII, `0x20` to `0x7E` (30_encoding.md R84). -/
def printable (c : Char) : Bool := decide (0x20 ≤ c.toNat) && decide (c.toNat ≤ 0x7E)

/-- The commands that hash the bytes `m`: `INIT`, one `PUSH` for each byte in order, `FINAL` (30_encoding.md R84). -/
def messageWords (m : List Byte) : List CmdWord :=
  [cmdWord 1 0] ++ m.map (fun b => cmdWord 2 b.toNat) ++ [cmdWord 3 0]

/-- `DIGEST`: `READ 0` to `READ 4` (30_encoding.md R84). -/
def digestWords : List CmdWord := (List.range 5).map (cmdWord 4)

/-- The command words of a line; nothing where an operand is out of range, which is an assembly error (30_encoding.md R83,
R84). -/
def AsmLine.assemble : AsmLine → Option (List CmdWord)
  | .init => some [cmdWord 1 0]
  | .push n => if n ≤ 255 then some [cmdWord 2 n] else none
  | .final => some [cmdWord 3 0]
  | .read i => if i ≤ 4 then some [cmdWord 4 i] else none
  | .stat => some [cmdWord 5 0]
  | .word n => if n ≤ 0xFFFF then some [BitVec.ofNat 16 n] else none
  | .msg text =>
    if text.all printable then some (messageWords (text.map fun c => BitVec.ofNat 8 c.toNat)) else none
  | .msgx bytes => some (messageWords bytes)
  | .fill n b => if b ≤ 255 then some (List.replicate n (cmdWord 2 b)) else none
  | .digest => some digestWords
  | .blank => some []

/-! ## Reading a line -/

/-- The line without its comment, which runs from `;` to the end; a `;` between double quotes or in a character literal
begins none. -/
def stripComment (inText : Bool) : List Char → List Char
  | [] => []
  | '"' :: cs => '"' :: stripComment (!inText) cs
  | '\'' :: c :: '\'' :: cs => '\'' :: c :: '\'' :: stripComment inText cs
  | c :: cs => if c = ';' ∧ ¬inText then [] else c :: stripComment inText cs

/-- The text without spaces at its ends. DESIGN CHOICE (notes/assumptions/15.md): a tab is no space here. -/
def trimSpaces (cs : List Char) : List Char :=
  ((cs.dropWhile (· = ' ')).reverse.dropWhile (· = ' ')).reverse

/-- The value of a digit in base 10 or 16. DESIGN CHOICE (notes/assumptions/15.md): a hexadecimal digit in either case. -/
def digitValue (base : Nat) (c : Char) : Option Nat :=
  let v :=
    if '0' ≤ c ∧ c ≤ '9' then some (c.toNat - '0'.toNat)
    else if 'a' ≤ c ∧ c ≤ 'f' then some (10 + c.toNat - 'a'.toNat)
    else if 'A' ≤ c ∧ c ≤ 'F' then some (10 + c.toNat - 'A'.toNat)
    else none
  v.filter (· < base)

/-- The value of a string of digits; an empty one has none. -/
def digitsValue (base : Nat) : List Char → Option Nat
  | [] => none
  | cs => cs.foldl (fun acc c => acc.bind fun n => (digitValue base c).map fun d => n * base + d) (some 0)

/-- A number: decimal, `0x` hexadecimal, or a printable character in single quotes (30_encoding.md R83). DESIGN CHOICE
(notes/assumptions/15.md): R83 does not say in which case the hexadecimal digits are, and either is read. -/
def parseNumber : List Char → Option Nat
  | ['\'', c, '\''] => if printable c then some c.toNat else none
  | '0' :: 'x' :: cs => digitsValue 16 cs
  | cs => digitsValue 10 cs

/-- Two-digit hexadecimal bytes, separated by spaces (30_encoding.md R84). -/
def parseHexBytes : List Char → Option (List Byte)
  | [] => some []
  | ' ' :: cs => parseHexBytes cs
  | [a, b] => (digitsValue 16 [a, b]).map fun n => [BitVec.ofNat 8 n]
  | a :: b :: ' ' :: cs =>
    (digitsValue 16 [a, b]).bind fun n => (parseHexBytes cs).map fun bs => BitVec.ofNat 8 n :: bs
  | _ => none

/-- A text in double quotes, the quotes not included; it holds no double quote (30_encoding.md R84: "no escapes"). -/
def parseQuoted : List Char → Option (List Char)
  | '"' :: cs =>
    if cs.getLast? = some '"' ∧ ¬cs.dropLast.contains '"' then some cs.dropLast else none
  | _ => none

/-- `n, b`: two numbers with a comma between them (30_encoding.md R84). -/
def parsePair (cs : List Char) : Option (Nat × Nat) :=
  match cs.dropWhile (· ≠ ',') with
  | ',' :: rest =>
    (parseNumber (trimSpaces (cs.takeWhile (· ≠ ',')))).bind fun n =>
      (parseNumber (trimSpaces rest)).map fun b => (n, b)
  | _ => none

/-- A line as its mnemonic and its operand text; a mnemonic that takes no operand is refused with one (30_encoding.md R83).
DESIGN CHOICE (notes/assumptions/15.md): only the space character, not a tab, separates the two. -/
def parseLine (line : List Char) : Option AsmLine :=
  let cs := trimSpaces (stripComment false line)
  let name := cs.takeWhile (· ≠ ' ')
  let operand := trimSpaces (cs.dropWhile (· ≠ ' '))
  if cs = [] then some .blank
  else if operand = [] then
    if name = ['I', 'N', 'I', 'T'] then some .init
    else if name = ['F', 'I', 'N', 'A', 'L'] then some .final
    else if name = ['S', 'T', 'A', 'T'] then some .stat
    else if name = ['D', 'I', 'G', 'E', 'S', 'T'] then some .digest
    else if name = ['M', 'S', 'G', 'X'] then some (.msgx [])
    else none
  else if name = ['P', 'U', 'S', 'H'] then (parseNumber operand).map .push
  else if name = ['R', 'E', 'A', 'D'] then (parseNumber operand).map .read
  else if name = ['.', 'w', 'o', 'r', 'd'] then (parseNumber operand).map .word
  else if name = ['M', 'S', 'G'] then (parseQuoted operand).map .msg
  else if name = ['M', 'S', 'G', 'X'] then (parseHexBytes operand).map .msgx
  else if name = ['F', 'I', 'L', 'L'] then (parsePair operand).map fun nb => .fill nb.1 nb.2
  else none

/-- The command words of a line of text. -/
def assembleLine (line : List Char) : Option (List CmdWord) := (parseLine line).bind AsmLine.assemble

/-- The command words of a program, one command per line; nothing where a line does not assemble. -/
def assembleProgram : List (List Char) → Option (List CmdWord)
  | [] => some []
  | l :: ls => (assembleLine l).bind fun ws => (assembleProgram ls).map (ws ++ ·)

/-! ## Writing a trace -/

/-- The data byte of a `PAD.PUTB` trace line, as `0x` and two hexadecimal digits (30_encoding.md R85). DESIGN CHOICE
(notes/assumptions/15.md): exactly two digits, in upper case; R85 gives the one example `0x61`. -/
def hexByte (b : Byte) : String :=
  "0x" ++ String.ofList [(Nat.digitChar (b.toNat / 16)).toUpper, (Nat.digitChar (b.toNat % 16)).toUpper]

/-- The trace line of a micro-operation: `UNIT.OP idx`, with the data byte after a comma for `PAD.PUTB` (30_encoding.md R85).
The index is in decimal, as in R85's example (notes/assumptions/15.md). -/
def MicroOp.traceLine : MicroOp → String
  | .putb p b => "PAD.PUTB " ++ toString p.val ++ ", " ++ hexByte b
  | .mark p => "PAD.MARK " ++ toString p.val
  | .zero p => "PAD.ZERO " ++ toString p.val
  | .len => "PAD.LEN"
  | .load i => "WEX.LOAD " ++ toString i.val
  | .exp i => "WEX.EXP " ++ toString i.val.val
  | .initv => "CMP.INITV"
  | .rnd t => "CMP.RND " ++ toString t.val
  | .fold => "CMP.FOLD"

/-- A line of a trace: one micro-operation, or `SEQ.BLOCK`, which stands for 162 of them (30_encoding.md R85). -/
inductive TraceItem where
  | one (u : MicroOp)
  | seqBlock
  deriving DecidableEq, Repr

/-- The micro-operations a trace line stands for (30_encoding.md R85). -/
def TraceItem.ops : TraceItem → List MicroOp
  | .one u => [u]
  | .seqBlock => Sys2Proof.Machine.seqBlock

/-- The text of a trace line (30_encoding.md R85). -/
def TraceItem.text : TraceItem → String
  | .one u => u.traceLine
  | .seqBlock => "SEQ.BLOCK"

end Sys2Proof.Machine
end

