-- ==== Sys2Proof/Machine/Reference.lean ====
section
/-! DEFINITION. The four reference functions of the spec (00_scope.md section 5.4): `pad`, `expand`, `compress`, `sha1`,
pure functions over bytes and words that touch no machine state. The machine does not use them; statements compare the
machine with them. -/

namespace Sys2Proof.Machine

/-- A block: sixteen 32-bit words (30_encoding.md R80). -/
abbrev Block := Vector Word 16

/-- The block whose byte `j` is `f j`, `j` from 0 to 63, packed big-endian (30_encoding.md R80, 20_memory.md R50). -/
def blockOfBytes (f : Nat → Byte) : Block :=
  Vector.ofFn fun i => be32 (f (4 * i.val)) (f (4 * i.val + 1)) (f (4 * i.val + 2)) (f (4 * i.val + 3))

/-- `z = (55 - L) mod 64`, the number of zero bytes (40_padder.md R100). -/
def zeroCount (l : Nat) : Nat := (55 + 64 - l % 64) % 64

/-- `N = (L + 8) div 64 + 1`, the number of blocks (40_padder.md R100). -/
def blockCount (l : Nat) : Nat := (l + 8) / 64 + 1

/-- The bit length `L * 8` as a 64-bit number (00_scope.md R5). DESIGN CHOICE for `L >= 2^61`, where `L * 8` does not fit
(notes/assumptions/19.md): the spec bounds `L` by `2^61 - 1` and leaves longer messages without a padding (90_conflicts.md C1,
93_implementation_defined.md U6); this function, being total, is then `L * 8` modulo `2^64`, which says nothing about the block:
no statement about `pad` or `sha1` goes past the bound. -/
def bitLength (l : Nat) : Len := BitVec.ofNat 64 (l * 8)

/-- `be64(v)`: the eight bytes of `v`, most significant first (40_padder.md R100). -/
def be64 (v : Len) : List Byte := (List.range 8).map (dwordByte v)

/-- The padded stream (30_encoding.md R81, 40_padder.md R100). -/
def padBytes (m : List Byte) : List Byte :=
  m ++ [0x80] ++ List.replicate (zeroCount m.length) 0 ++ be64 (bitLength m.length)

/-- Block `k` of a byte stream: bytes `64k` to `64k + 63` (40_padder.md R100). -/
def blockAt (stream : List Byte) (k : Nat) : Block := blockOfBytes fun j => stream.getD (64 * k + j) 0

/-- `pad(M)` (40_padder.md R100); for a message of `2^61` bytes or more see `bitLength`. -/
def pad (m : List Byte) : List Block := (List.range (blockCount m.length)).map (blockAt (padBytes m))

/-- The block followed by the first `n` extension words (41_schedule.md R122). -/
def extend (b : List Word) : Nat → List Word
  | 0 => b
  | n + 1 =>
    let w := extend b n
    let i := 16 + n
    w ++ [rotl (w.getD (i - 3) 0 ^^^ w.getD (i - 8) 0 ^^^ w.getD (i - 14) 0 ^^^ w.getD (i - 16) 0) 1 (by decide)]

/-- `expand(B)`: the eighty words of the schedule (41_schedule.md R122). -/
@[irreducible] def expand (b : Block) : Vector Word 80 := Vector.ofFn fun i => (extend b.toList 64).getD i.val 0

/-- The source's working variables a, b, c, d, e (42_compress.md R136). -/
structure Vars where
  a : Word
  b : Word
  c : Word
  d : Word
  e : Word
  deriving DecidableEq, Repr

/-- One round on the working variables, with schedule word `wt` (42_compress.md R136). -/
def roundVars (t : Fin 80) (wt : Word) (v : Vars) : Vars :=
  { a := roundTemp t wt v.a v.b v.c v.d v.e, b := v.a, c := rotl v.b 30 (by decide), d := v.c, e := v.d }

/-- The eighty rounds, `t` from 0 to 79 in order, over a schedule (42_compress.md R134, R136). -/
def allRounds (w : Vector Word 80) (v : Vars) : Vars := (List.finRange 80).foldl (fun v t => roundVars t w[t.val] v) v

/-- The working variables loaded from an accumulator (42_compress.md R136). -/
def Vars.ofAccumulator (h : Vector Word 5) : Vars := { a := h[0], b := h[1], c := h[2], d := h[3], e := h[4] }

/-- The fold-back of the working variables into an accumulator (42_compress.md R136). -/
def Vars.foldInto (v : Vars) (h : Vector Word 5) : Vector Word 5 :=
  #v[add32 h[0] v.a, add32 h[1] v.b, add32 h[2] v.c, add32 h[3] v.d, add32 h[4] v.e]

/-- `compress(Hin, B)` (42_compress.md R136). -/
@[irreducible] def compress (hin : Vector Word 5) (b : Block) : Vector Word 5 :=
  (allRounds (expand b) (Vars.ofAccumulator hin)).foldInto hin

/-- `sha1(M)` (43_driver.md R155). -/
def sha1 (m : List Byte) : Vector Word 5 := (pad m).foldl compress iv

/-- The digest as one 160-bit value, `H[0]` the most significant (20_memory.md R53; no operation outputs it). -/
def digestValue (h : Vector Word 5) : BitVec 160 := h[0] ++ h[1] ++ h[2] ++ h[3] ++ h[4]

/-- The bytes of the block in which `FINAL` closes a message whose tail of `p` bytes stands in `BLK`: the tail, the marker,
zeros (40_padder.md R102). -/
def tailByte (m : Mem) (p : Nat) (j : Nat) : Byte :=
  if j < p then readByte m j else if j = p then 0x80 else 0

/-- The same bytes with the last eight replaced by the length field (40_padder.md R106). -/
def withLengthField (n : Len) (f : Nat → Byte) (j : Nat) : Byte :=
  if j < 56 then f j else dwordByte n (j - 56)

end Sys2Proof.Machine
end

