-- ==== Sys2Proof/Safety.lean ====
section
/-! DEFINITION. What counts as a sound state and a safe run, in the terms the statements use: the invariant every step
keeps, the two faces of a response, and when two states cannot be told apart by any later response. -/

namespace Sys2Proof.Machine

/-- What a host does that keeps its duty of 43_driver.md R160: after each command it takes the response. -/
def exchange (ws : List CmdWord) : List HostEvent := ws.flatMap fun w => [.command w, .take]

/-- What holds between any two commands, from reset on. -/
structure State.Inv (s : State) : Prop where
  /-- `BLK` is in its canonical form: the model's own rule for memory. -/
  blkWf : memWf s.blk = true
  /-- While `LEN` has a meaning it is a multiple of 8 (10_state.md R25). -/
  lenAligned : s.phase ≠ .idle → s.len.toNat % 8 = 0
  /-- No micro-operation word outlives the command that issued it (10_state.md section 1, R32). -/
  noUop : s.uop = none
  /-- Every rejection, taken by the host or not yet, carries zero data (30_encoding.md R78). -/
  rejectedZero : ∀ r ∈ s.responses, r.code ≠ .ok → r.data = 0

/-- Every response so far was `OK`: the run has not gone wrong (60_exceptions.md R184, 70_reset_and_hazards.md R201).
DESIGN CHOICE (notes/assumptions/20.md): R201 speaks of a run over one message and R184 of a command sequence, and neither says
how long a run stays gone wrong; here the run is all that the host has been answered since power-on, so one rejection counts
against every later message too, past `INIT` and past a reset. No statement and no step rests on it. -/
def State.allAccepted (s : State) : Bool := s.responses.all fun r => r.code == .ok

/-- The run over a message is over and its digest may be read (70_reset_and_hazards.md R201), by the reading of
`State.allAccepted`. -/
def State.DigestReady (s : State) : Prop := s.phase = .done ∧ s.allAccepted = true

/-- Two states agree on all that can still reach a response (10_state.md R41, 43_driver.md R156): the phase and the two
channels; while a message is open `H`, `LEN` and the `LEN[8:3]` bytes already in `BLK`; in `DONE` the digest. They may
differ in everything else: `W`, `A` to `E`, the rest of `BLK`, and in `IDLE` every register. -/
structure Agree (s t : State) : Prop where
  phase : s.phase = t.phase
  inbox : s.inbox = t.inbox
  pending : s.pending = t.pending
  rsps : s.rsps = t.rsps
  noUopLeft : s.uop = none
  noUopRight : t.uop = none
  wfLeft : memWf s.blk = true
  wfRight : memWf t.blk = true
  openH : s.phase = .absorb → s.h = t.h
  openLen : s.phase = .absorb → s.len = t.len
  openBlk : s.phase = .absorb → ∀ a, a < (pos s.len).val → readByte s.blk a = readByte t.blk a
  doneH : s.phase = .done → s.h = t.h

/-- `PHASE` after a command, the last column of the table of 43_driver.md R151. -/
def phaseAfter : Phase → Instr → Phase
  | .idle, .init => .absorb
  | .absorb, .final => .done
  | .done, .init => .absorb
  | p, _ => p

/-- Whether the phase admits a command, the third column of the table of 43_driver.md R151. -/
def admits : Phase → Instr → Bool
  | .idle, .init => true
  | .absorb, .push _ => true
  | .absorb, .final => true
  | .done, .read _ => true
  | .done, .init => true
  | _, .stat => true
  | _, _ => false

/-- A command word that selects no row of 30_encoding.md R72, by the list of 60_exceptions.md R172. -/
def illegalWord (w : CmdWord) : Prop :=
  let op := (w.extractLsb' 8 8).toNat
  let x := (w.extractLsb' 0 8).toNat
  ¬(1 ≤ op ∧ op ≤ 5) ∨ ((op = 1 ∨ op = 3 ∨ op = 5) ∧ x ≠ 0) ∨ (op = 4 ∧ 5 ≤ x)

/-- A micro-operation word that names nothing, by the list of 30_encoding.md R77. -/
def reservedWord (w : UopWord) : Prop :=
  let unit := (w.extractLsb' 9 2).toNat
  let uop := (w.extractLsb' 7 2).toNat
  let idx := (w.extractLsb' 0 7).toNat
  unit = 3 ∨ (unit = 1 ∧ (uop = 2 ∨ uop = 3)) ∨ (unit = 2 ∧ uop = 3) ∨
  (unit = 0 ∧ uop ≤ 2 ∧ 63 < idx) ∨ (unit = 1 ∧ uop = 0 ∧ 15 < idx) ∨ (unit = 1 ∧ uop = 1 ∧ (idx < 16 ∨ 79 < idx)) ∨
  (unit = 2 ∧ uop = 1 ∧ 79 < idx) ∨ (unit = 0 ∧ uop = 3 ∧ idx ≠ 0) ∨ (unit = 2 ∧ (uop = 0 ∨ uop = 2) ∧ idx ≠ 0)

/-- Schedule word `t` computed just before round `t`: `WEX.LOAD t` or `WEX.EXP t`, then `CMP.RND t` (20_memory.md R63). -/
def roundWithItsWord (t : Fin 80) : List MicroOp :=
  if h : t.val < 16 then [.load ⟨t.val, h⟩, .rnd t] else [.exp ⟨t, by omega⟩, .rnd t]

/-- Another order of the micro-operations of one block that respects the data dependencies (20_memory.md R63). -/
def interleavedBlock : List MicroOp := [.initv] ++ (List.finRange 80).flatMap roundWithItsWord ++ [.fold]

end Sys2Proof.Machine
end

