-- ==== Sys2Proof/Certificates/Slice0/Obligations.lean ====
section
/-! DEFINITION. The statements for the provers, one `def Obligations.<Name> : Prop` each; OBLIGATIONS.json lists them with
their rules. Registers are named as the model names them; `readByte m a` reads byte `a` of `BLK`, `readWord m (4*i)` reads
`BLKW[i]`. An operation's next state is written with the update functions of State (`setBlk`, `setLen`, ...), so that every
field no update names is unchanged: that is the frame. -/

open Sys2Proof Sys2Proof.Machine

/-! ## Encoding -/

/-- Words written out from 30_encoding.md sections 1 and 2 (and listed in 95_test_vectors.md section 7) decode to what they
name; `0x0405`, `0x8100`, `0x181` and `0x210` name nothing. -/
def Obligations.SpecWordsDecode : Prop :=
  decode (.cmd 0x0100) = .ok .init ∧ decode (.cmd 0x0261) = .ok (.push 0x61) ∧ decode (.cmd 0x0300) = .ok .final ∧
  decode (.cmd 0x0404) = .ok (.read 4) ∧ decode (.cmd 0x0500) = .ok .stat ∧
  decode (.uop 0x03F 0x61) = .ok (.padPutb 63 0x61) ∧ decode (.uop 0x083 0) = .ok (.padMark 3) ∧
  decode (.uop 0x137 0) = .ok (.padZero 55) ∧ decode (.uop 0x180 0) = .ok .padLen ∧
  decode (.uop 0x20F 0) = .ok (.wexLoad 15) ∧ decode (.uop 0x290 0) = .ok (.wexExp 16) ∧
  decode (.uop 0x2CF 0) = .ok (.wexExp 79) ∧ decode (.uop 0x400 0) = .ok .cmpInitv ∧
  decode (.uop 0x493 0) = .ok (.cmpRnd 19) ∧ decode (.uop 0x4CF 0) = .ok (.cmpRnd 79) ∧
  decode (.uop 0x500 0) = .ok .cmpFold ∧
  decode (.cmd 0x0405) = .error .illegalCmd ∧ decode (.cmd 0x8100) = .error .illegalCmd ∧
  decode (.uop 0x181 0) = .error .reservedUop ∧ decode (.uop 0x210 0) = .error .reservedUop

/-- No bit of an encoding is dropped: for every well-formed operation, with every operand at every value its encoding
admits, decoding its word gives it back (30_encoding.md sections 1 and 2). -/
def Obligations.DecodeOfEncodeIsIdentity : Prop :=
  ∀ i : Instr, i.WellFormed → decode (encode i) = .ok i

/-- Each word has one meaning: a word that decodes to an operation is the word that operation encodes to, and the operation
is well formed. For a micro-operation other than `PAD.PUTB` the data lines carry nothing, so only the word comes back
(30_encoding.md sections 1 and 2). -/
def Obligations.DecodedWordsEncodeBack : Prop :=
  (∀ (w : CmdWord) (i : Instr), decode (.cmd w) = .ok i → i.WellFormed ∧ i.isCommand = true ∧ encode i = .cmd w) ∧
  (∀ (w : UopWord) (data : Byte) (i : Instr), decode (.uop w data) = .ok i → i.WellFormed ∧ i.isCommand = false ∧
    ∃ data', encode i = .uop w data' ∧ ∀ p b, i = .padPutb p b → b = data ∧ data' = data)

/-- The match and mask columns of the command map: a word selects a row when `(w AND mask) = match` and the constraint on
`x` holds; the operand is read from the bits the map names (30_encoding.md section 2). -/
def Obligations.CommandMapByMatchAndMask : Prop :=
  ∀ w : CmdWord,
    (decode (.cmd w) = .ok .init ↔ w &&& 0xFFFF = 0x0100) ∧
    (∀ b : Byte, decode (.cmd w) = .ok (.push b) ↔ w &&& 0xFF00 = 0x0200 ∧ b = w.extractLsb' 0 8) ∧
    (decode (.cmd w) = .ok .final ↔ w &&& 0xFFFF = 0x0300) ∧
    (∀ i : Fin 5, decode (.cmd w) = .ok (.read i) ↔ w &&& 0xFFF8 = 0x0400 ∧ (w.extractLsb' 0 3).toNat = i.val) ∧
    (decode (.cmd w) = .ok .stat ↔ w &&& 0xFFFF = 0x0500)

/-- The micro-operation map: the match and mask columns, the ranges of the indices, and the word as
`unit * 512 + uop * 128 + idx` (30_encoding.md R73). -/
def Obligations.MicroOperationMap : Prop :=
  (∀ (w : UopWord) (data : Byte),
    let idx := (w.extractLsb' 0 7).toNat
    (∀ (p : Fin 64) (b : Byte), decode (.uop w data) = .ok (.padPutb p b) ↔ w &&& 0x7C0 = 0x000 ∧ idx = p.val ∧ b = data) ∧
    (∀ p : Fin 64, decode (.uop w data) = .ok (.padMark p) ↔ w &&& 0x7C0 = 0x080 ∧ idx = p.val) ∧
    (∀ p : Fin 64, decode (.uop w data) = .ok (.padZero p) ↔ w &&& 0x7C0 = 0x100 ∧ idx = p.val) ∧
    (decode (.uop w data) = .ok .padLen ↔ w &&& 0x7FF = 0x180) ∧
    (∀ i : Fin 16, decode (.uop w data) = .ok (.wexLoad i) ↔ w &&& 0x7F0 = 0x200 ∧ idx = i.val) ∧
    (∀ i : Fin 80, decode (.uop w data) = .ok (.wexExp i) ↔ w &&& 0x780 = 0x280 ∧ 16 ≤ idx ∧ idx = i.val) ∧
    (decode (.uop w data) = .ok .cmpInitv ↔ w &&& 0x7FF = 0x400) ∧
    (∀ t : Fin 80, decode (.uop w data) = .ok (.cmpRnd t) ↔ w &&& 0x780 = 0x480 ∧ idx = t.val) ∧
    (decode (.uop w data) = .ok .cmpFold ↔ w &&& 0x7FF = 0x500)) ∧
  (∀ w : UopWord, w.toNat = (w.extractLsb' 9 2).toNat * 512 + (w.extractLsb' 7 2).toNat * 128 + (w.extractLsb' 0 7).toNat)

/-- A word on the micro-operation lines that names no micro-operation is refused, one that names one is run, and the
sequencer issues none of the reserved ones (30_encoding.md section 4, 60_exceptions.md section 3). The model's choice, DESIGN
CHOICE: that a word put on the lines is run by `step` at all (notes/assumptions/4.md), and that `step` refuses a reserved one
(notes/assumptions/10.md; the spec defines no behaviour for it). -/
def Obligations.ReservedMicroOperationsRefused : Prop :=
  (∀ (s : State) (w : UopWord) (data : Byte), s.uop = some (w, data) → reservedWord w → step s = .refused .reservedUop) ∧
  (∀ (s : State) (w : UopWord) (data : Byte), s.uop = some (w, data) → ¬reservedWord w → ∃ t, step s = .next t) ∧
  (∀ u : MicroOp, ∃ (w : UopWord) (data : Byte), encode u.toInstr = .uop w data ∧ ¬reservedWord w)

/-! ## Arithmetic -/

/-- `add32` is addition modulo `2^32`, associative and commutative (00_scope.md R1). -/
def Obligations.WordAdditionWraps : Prop :=
  (∀ x y : Word, (add32 x y).toNat = (x.toNat + y.toNat) % 2 ^ 32) ∧
  (∀ x y z : Word, add32 (add32 x y) z = add32 x (add32 y z)) ∧ (∀ x y : Word, add32 x y = add32 y x)

/-- `rotl` as the formula and as what happens to each bit: bit `i` of the result is bit `(i - n) mod 32` of the operand
(00_scope.md R2). -/
def Obligations.RotateLeftMovesEveryBit : Prop :=
  ∀ (x : Word) (n : Nat) (h : 0 < n ∧ n < 32),
    (rotl x n h).toNat = (x.toNat * 2 ^ n % 2 ^ 32) ||| (x.toNat / 2 ^ (32 - n)) ∧
    ∀ i : Nat, i < 32 → (rotl x n h).getLsbD i = x.getLsbD ((i + (32 - n)) % 32)

/-- The round function by its expressions and by each bit position, and the constant of each round (42_compress.md R130,
R131). -/
def Obligations.RoundFunctionAndConstantByQuartile : Prop :=
  ∀ (t : Fin 80) (b c d : Word),
    (t.val ≤ 19 → roundF t b c d = (b &&& c) ||| (~~~b &&& d) ∧ roundConstant t = 0x5A827999 ∧
      ∀ k : Nat, (roundF t b c d).getLsbD k = if b.getLsbD k then c.getLsbD k else d.getLsbD k) ∧
    (20 ≤ t.val → t.val ≤ 39 → roundF t b c d = b ^^^ c ^^^ d ∧ roundConstant t = 0x6ED9EBA1 ∧
      ∀ k : Nat, (roundF t b c d).getLsbD k = ((b.getLsbD k != c.getLsbD k) != d.getLsbD k)) ∧
    (40 ≤ t.val → t.val ≤ 59 → roundF t b c d = (b &&& c) ||| (b &&& d) ||| (c &&& d) ∧ roundConstant t = 0x8F1BBCDC ∧
      ∀ k : Nat, (roundF t b c d).getLsbD k =
        decide (2 ≤ (b.getLsbD k).toNat + (c.getLsbD k).toNat + (d.getLsbD k).toNat)) ∧
    (60 ≤ t.val → roundF t b c d = b ^^^ c ^^^ d ∧ roundConstant t = 0xCA62C1D6 ∧
      ∀ k : Nat, (roundF t b c d).getLsbD k = ((b.getLsbD k != c.getLsbD k) != d.getLsbD k))

/-! ## The block register -/

/-- `BLKW[i]` is the four bytes of `BLK` at `4i`, the first the most significant; a byte write changes exactly the eight
bits of one word that 20_memory.md R50 names; eight bytes written at 56 are read back as words 14 and 15 (20_memory.md
R52). -/
def Obligations.WordViewOfTheBlock : Prop :=
  ∀ m : Mem, memWf m = true →
    (∀ i : Fin 16, (blkWords m)[i.val] = readWord m (4 * i.val) ∧
      (readWord m (4 * i.val)).toNat = (readByte m (4 * i.val)).toNat * 2 ^ 24 + (readByte m (4 * i.val + 1)).toNat * 2 ^ 16 +
        (readByte m (4 * i.val + 2)).toNat * 2 ^ 8 + (readByte m (4 * i.val + 3)).toNat) ∧
    (∀ (j : Fin 64) (v : Byte) (i : Fin 16) (k : Nat), k < 32 →
      (readWord (writeByte m j.val v) (4 * i.val)).getLsbD k =
        if i.val = j.val / 4 ∧ 24 - 8 * (j.val % 4) ≤ k ∧ k ≤ 31 - 8 * (j.val % 4) then v.getLsbD (k - (24 - 8 * (j.val % 4)))
        else (readWord m (4 * i.val)).getLsbD k) ∧
    (∀ v : Len, readWord (writeDword m 56 v) 56 = v.extractLsb' 32 32 ∧ readWord (writeDword m 56 v) 60 = v.extractLsb' 0 32)

/-- `PAD.PUTB`, `PAD.MARK` and `PAD.ZERO`: their words, and that each completes and stores its byte at `p`; every other byte
and everything else in the state is unchanged (40_padder.md section 3). -/
def Obligations.PadderBytesStored : Prop :=
  ∀ (s : State) (p : Fin 64), memWf s.blk = true →
    (∀ b : Byte, decode (.uop (BitVec.ofNat 11 (0x000 + p.val)) b) = .ok (.padPutb p b) ∧
      ∃ m : Mem, exec (.padPutb p b) s = .next (s.setBlk m) ∧ memWf m = true ∧
        ∀ a : Nat, readByte m a = if a = p.val then b else readByte s.blk a) ∧
    (decode (.uop (BitVec.ofNat 11 (0x080 + p.val)) 0) = .ok (.padMark p) ∧
      ∃ m : Mem, exec (.padMark p) s = .next (s.setBlk m) ∧ memWf m = true ∧
        ∀ a : Nat, readByte m a = if a = p.val then 0x80 else readByte s.blk a) ∧
    (decode (.uop (BitVec.ofNat 11 (0x100 + p.val)) 0) = .ok (.padZero p) ∧
      ∃ m : Mem, exec (.padZero p) s = .next (s.setBlk m) ∧ memWf m = true ∧
        ∀ a : Nat, readByte m a = if a = p.val then 0x00 else readByte s.blk a)

/-- `PAD.LEN` writes `LEN` big-endian into bytes 56 to 63, whatever they held, and nothing else (20_memory.md R51, 40_padder.md
R106). -/
def Obligations.LengthFieldStored : Prop :=
  ∀ s : State, memWf s.blk = true →
    decode (.uop 0x180 0) = .ok .padLen ∧
    ∃ m : Mem, exec .padLen s = .next (s.setBlk m) ∧ memWf m = true ∧
      (∀ k : Nat, k < 8 → readByte m (56 + k) = s.len.extractLsb' (56 - 8 * k) 8) ∧
      (∀ a : Nat, a < 56 ∨ 64 ≤ a → readByte m a = readByte s.blk a) ∧
      readWord m (4 * 14) = s.len.extractLsb' 32 32 ∧ readWord m (4 * 15) = s.len.extractLsb' 0 32

/-! ## The schedule -/

/-- `WEX.LOAD i` completes: `W[i]` is the big-endian word of `BLK[4i .. 4i+3]`, every other entry and everything else is
unchanged; two loads may be done in either order (41_schedule.md R120). -/
def Obligations.ScheduleLoad : Prop :=
  ∀ (s : State) (i : Fin 16),
    decode (.uop (BitVec.ofNat 11 (0x200 + i.val)) 0) = .ok (.wexLoad i) ∧
    ∃ w : Vector Word 80, exec (.wexLoad i) s = .next (s.setW w) ∧
      (w[i.val].toNat = (readByte s.blk (4 * i.val)).toNat * 2 ^ 24 + (readByte s.blk (4 * i.val + 1)).toNat * 2 ^ 16 +
        (readByte s.blk (4 * i.val + 2)).toNat * 2 ^ 8 + (readByte s.blk (4 * i.val + 3)).toNat) ∧
      (∀ j : Fin 80, j.val ≠ i.val → w[j.val] = s.w[j.val]) ∧
      ∀ k : Fin 16, issue [.load i, .load k] s = issue [.load k, .load i] s

/-- `WEX.EXP i`, `i` from 16 to 79, completes: `W[i]` is the XOR of its four taps rotated left by 1, every other entry and
everything else is unchanged; with an index below 16, which no word encodes, it is refused. That refusal is the model's choice,
DESIGN CHOICE (notes/assumptions/10.md): 30_encoding.md section 4 defines no behaviour for such an index (41_schedule.md section
1). -/
def Obligations.ScheduleExpansionWord : Prop :=
  ∀ (s : State) (i : Fin 80),
    (∀ h : 16 ≤ i.val,
      decode (.uop (BitVec.ofNat 11 (0x280 + i.val)) 0) = .ok (.wexExp i) ∧
      ∃ w : Vector Word 80, exec (.wexExp i) s = .next (s.setW w) ∧
        w[i.val] = rotl (s.w[i.val - 3] ^^^ s.w[i.val - 8] ^^^ s.w[i.val - 14] ^^^ s.w[i.val - 16]) 1 (by decide) ∧
        ∀ j : Fin 80, j.val ≠ i.val → w[j.val] = s.w[j.val]) ∧
    (i.val < 16 → exec (.wexExp i) s = .refused .reservedUop)

/-- `expand(B)`: its first sixteen entries are the block, each later one is the rotated XOR of its four taps; after
`WEX.LOAD 0..15` and `WEX.EXP 16..79` the schedule is `expand(BLKW)` and nothing else has changed (41_schedule.md R122). -/
def Obligations.ScheduleIsTheExpansionOfTheBlock : Prop :=
  (∀ (b : Block) (i : Fin 16), (expand b)[i.val] = b[i.val]) ∧
  (∀ (b : Block) (i : Fin 80) (_ : 16 ≤ i.val),
    (expand b)[i.val] =
      rotl ((expand b)[i.val - 3] ^^^ (expand b)[i.val - 8] ^^^ (expand b)[i.val - 14] ^^^ (expand b)[i.val - 16]) 1
        (by decide)) ∧
  (∀ s : State, issue (loadOps ++ expOps) s = s.setW (expand (blkWords s.blk)))

/-- `expand` is linear over XOR, word by word (41_schedule.md section 1). -/
def Obligations.ExpansionIsLinear : Prop :=
  ∀ (x y : Block) (i : Fin 80),
    (expand (Vector.ofFn fun k => x[k.val] ^^^ y[k.val]))[i.val] = (expand x)[i.val] ^^^ (expand y)[i.val]

/-! ## The compression engine -/

/-- `CMP.INITV` completes: `A` to `E` are `H[0]` to `H[4]`, everything else is unchanged (42_compress.md R132). -/
def Obligations.WorkingVariablesLoaded : Prop :=
  ∀ s : State,
    decode (.uop 0x400 0) = .ok .cmpInitv ∧
    exec .cmpInitv s = .next (s.setVars s.h[0] s.h[1] s.h[2] s.h[3] s.h[4])

/-- `CMP.RND t` completes: the new `A` is the five-word sum modulo `2^32`, `B` to `E` move on, every right side is the value
before the round, everything else is unchanged (42_compress.md section 2). -/
def Obligations.RoundMixesTheWorkingVariables : Prop :=
  ∀ (s : State) (t : Fin 80),
    decode (.uop (BitVec.ofNat 11 (0x480 + t.val)) 0) = .ok (.cmpRnd t) ∧
    ∃ temp : Word, exec (.cmpRnd t) s = .next (s.setVars temp s.a (rotl s.b 30 (by decide)) s.c s.d) ∧
      temp.toNat = ((rotl s.a 5 (by decide)).toNat + (roundF t s.b s.c s.d).toNat + s.e.toNat + (roundConstant t).toNat +
        s.w[t.val].toNat) % 2 ^ 32

/-- `CMP.FOLD` completes: each accumulator word grows by its working variable modulo `2^32`, no carry passes between words,
everything else is unchanged; no other micro-operation writes `H` (42_compress.md R135). -/
def Obligations.FoldBackIntoTheAccumulator : Prop :=
  ∀ s : State,
    decode (.uop 0x500 0) = .ok .cmpFold ∧
    ∃ h : Vector Word 5, exec .cmpFold s = .next (s.setH h) ∧
      h[0].toNat = (s.h[0].toNat + s.a.toNat) % 2 ^ 32 ∧ h[1].toNat = (s.h[1].toNat + s.b.toNat) % 2 ^ 32 ∧
      h[2].toNat = (s.h[2].toNat + s.c.toNat) % 2 ^ 32 ∧ h[3].toNat = (s.h[3].toNat + s.d.toNat) % 2 ^ 32 ∧
      h[4].toNat = (s.h[4].toNat + s.e.toNat) % 2 ^ 32 ∧
      ∀ u : MicroOp, u ≠ .fold → (issue [u] s).h = s.h

/-- `SEQ.BLOCK` on any state leaves `H = compress(H, BLKW)`, `W = expand(BLKW)` and in `A` to `E` what round 79 left, and
does not write `BLK`, `LEN`, `PHASE` or a channel (43_driver.md R153, 42_compress.md R136). -/
def Obligations.BlockSequenceCompresses : Prop :=
  ∀ s : State,
    let v := allRounds (expand (blkWords s.blk)) (Vars.ofAccumulator s.h)
    issue seqBlock s =
      ((s.setW (expand (blkWords s.blk))).setVars v.a v.b v.c v.d v.e).setH (compress s.h (blkWords s.blk))

/-- The 162 micro-operation words of `SEQ.BLOCK`, in order: `0x200..0x20F`, `0x290..0x2CF`, `0x400`, `0x480..0x4CF`, `0x500`
(43_driver.md section 1, 95_test_vectors.md P2). -/
def Obligations.BlockSequenceWords : Prop :=
  seqBlock.map (fun u => encode u.toInstr) =
    ((List.range 16).map (0x200 + ·) ++ (List.range 64).map (0x290 + ·) ++ [0x400] ++ (List.range 80).map (0x480 + ·) ++
      [0x500]).map fun n => OpWord.uop (BitVec.ofNat 11 n) 0

/-- Any micro-operation, run as an operation of the machine, does what the sequencer's `issue` does (60_exceptions.md section
3: none can fail). -/
def Obligations.MicroOperationsRunAsIssued : Prop :=
  ∀ (u : MicroOp) (s : State), exec u.toInstr s = .next (issue [u] s)

/-- Computing each schedule word just before its round gives the same state as the canonical order (20_memory.md section 6). -/
def Obligations.InterleavedOrderAgrees : Prop :=
  ∀ s : State, issue interleavedBlock s = issue seqBlock s

/-- How many micro-operations, and how many blocks, `PUSH` and `FINAL` make for each position (70_reset_and_hazards.md R198,
40_padder.md section 4). -/
def Obligations.MicroOperationCounts : Prop :=
  seqBlock.length = 162 ∧
  (∀ (p : Fin 64) (b : Byte), (pushStoreOps p b ++ pushBlockOps p).length = if p.val = 63 then 163 else 1) ∧
  (∀ p : Fin 64, (finalOps p).length = if p.val ≤ 55 then 219 - p.val else 445 - p.val) ∧
  (∀ (p : Fin 64) (b : Byte), (pushStoreOps p b ++ pushBlockOps p).count .fold = if p.val = 63 then 1 else 0) ∧
  (∀ p : Fin 64, (finalOps p).count .fold = if p.val ≤ 55 then 1 else 2)

/-! ## The commands -/

/-- `INIT`: accepted in `IDLE` and `DONE`, where it loads `H` with the initial constants, clears `LEN` and opens the message;
rejected in `ABSORB`; `BLK`, `W`, `A` to `E` are untouched (43_driver.md R150). -/
def Obligations.InitOpensAMessage : Prop :=
  ∀ s : State,
    decode (.cmd 0x0100) = .ok .init ∧
    (s.phase = .absorb → exec .init s = .next (s.giveRsp ⟨.badPhase, 0⟩)) ∧
    (s.phase ≠ .absorb →
      exec .init s = .next ((((s.setH #v[0x67452301, 0xEFCDAB89, 0x98BADCFE, 0x10325476, 0xC3D2E1F0]).setLen 0).setPhase
        .absorb).giveRsp ⟨.ok, 0⟩))

/-- `PUSH b`: rejected outside `ABSORB`, and with `LEN_OVERFLOW` at the longest message; otherwise the byte is stored at
`p = LEN[8:3]` and `LEN` grows by 8; at `p = 63` the block is compressed, and only then are `H`, `W` and `A` to `E` written
(40_padder.md section 2). -/
def Obligations.PushAppendsAByte : Prop :=
  ∀ (s : State) (b : Byte), memWf s.blk = true →
    let p := s.len.toNat / 8 % 64
    decode (.cmd (0x0200 + b.setWidth 16)) = .ok (.push b) ∧
    (s.phase ≠ .absorb → exec (.push b) s = .next (s.giveRsp ⟨.badPhase, 0⟩)) ∧
    (s.phase = .absorb → s.len = 0xFFFFFFFFFFFFFFF8 → exec (.push b) s = .next (s.giveRsp ⟨.lenOverflow, 0⟩)) ∧
    (s.phase = .absorb → s.len ≠ 0xFFFFFFFFFFFFFFF8 →
      ∃ m : Mem, memWf m = true ∧ (∀ a : Nat, readByte m a = if a = p then b else readByte s.blk a) ∧
        (p ≠ 63 → exec (.push b) s = .next (((s.setBlk m).setLen (s.len + 8)).giveRsp ⟨.ok, 0⟩)) ∧
        (p = 63 →
          let v := allRounds (expand (blkWords m)) (Vars.ofAccumulator s.h)
          exec (.push b) s = .next ((((((s.setBlk m).setLen (s.len + 8)).setW (expand (blkWords m))).setVars v.a v.b v.c v.d
            v.e).setH (compress s.h (blkWords m))).giveRsp ⟨.ok, 0⟩)))

/-- `FINAL`: rejected outside `ABSORB`; otherwise, with `p = LEN[8:3]`, the tail, the marker, zeros and the length field make
one block (`p <= 55`) or two (`p >= 56`), which are folded into `H` in order; `PHASE` becomes `DONE`, `LEN` is not changed
(40_padder.md section 2). -/
def Obligations.FinalPadsAndCompresses : Prop :=
  ∀ s : State, memWf s.blk = true →
    let p := s.len.toNat / 8 % 64
    decode (.cmd 0x0300) = .ok .final ∧
    (s.phase ≠ .absorb → exec .final s = .next (s.giveRsp ⟨.badPhase, 0⟩)) ∧
    (s.phase = .absorb → p ≤ 55 →
      let last := blockOfBytes (withLengthField s.len (tailByte s.blk p))
      let v := allRounds (expand last) (Vars.ofAccumulator s.h)
      ∃ m : Mem, memWf m = true ∧
        (∀ a : Nat, a < 64 → readByte m a = withLengthField s.len (tailByte s.blk p) a) ∧
        exec .final s = .next (((((((s.setBlk m).setW (expand last)).setVars v.a v.b v.c v.d v.e).setH
          (compress s.h last)).setPhase .done)).giveRsp ⟨.ok, 0⟩)) ∧
    (s.phase = .absorb → 56 ≤ p →
      let first := blockOfBytes (tailByte s.blk p)
      let last := blockOfBytes (withLengthField s.len fun _ => 0)
      let v := allRounds (expand last) (Vars.ofAccumulator (compress s.h first))
      ∃ m : Mem, memWf m = true ∧
        (∀ a : Nat, a < 64 → readByte m a = withLengthField s.len (fun _ => 0) a) ∧
        exec .final s = .next (((((((s.setBlk m).setW (expand last)).setVars v.a v.b v.c v.d v.e).setH
          (compress (compress s.h first) last)).setPhase .done)).giveRsp ⟨.ok, 0⟩))

/-- `READ i` answers `H[i]` in `DONE` and is rejected in the other phases; it changes nothing; an index of 5 or more is no `READ`
(43_driver.md R152). -/
def Obligations.ReadAnswersTheDigestWord : Prop :=
  ∀ (s : State) (i : Fin 5),
    decode (.cmd (BitVec.ofNat 16 (0x0400 + i.val))) = .ok (.read i) ∧
    (s.phase ≠ .done → exec (.read i) s = .next (s.giveRsp ⟨.badPhase, 0⟩)) ∧
    (s.phase = .done → exec (.read i) s = .next (s.giveRsp ⟨.ok, s.h[i.val]⟩)) ∧
    (∀ x : Byte, 5 ≤ x.toNat → decode (.cmd (0x0400 + x.setWidth 16)) = .error .illegalCmd)

/-- `STAT` answers the phase in bits 1:0 with zeros above, in every phase, and changes nothing (43_driver.md R154, 10_state.md
R31). -/
def Obligations.StatAnswersThePhase : Prop :=
  ∀ s : State,
    decode (.cmd 0x0500) = .ok .stat ∧
    ∃ data : Word, exec .stat s = .next (s.giveRsp ⟨.ok, data⟩) ∧ data.extractLsb' 2 30 = 0 ∧
      (s.phase = .idle → data = 0) ∧ (s.phase = .absorb → data = 1) ∧ (s.phase = .done → data = 2)

/-- `LEN` starts at 0 with `INIT`, grows by 8 for each accepted byte as a number, and never wraps: the `PUSH` that would take it
past `2^64 - 8` is rejected and leaves it alone (00_scope.md R5). -/
def Obligations.LengthNeverWraps : Prop :=
  ∀ (s : State) (b : Byte), s.Inv →
    (s.phase ≠ .absorb → ∃ t, exec .init s = .next t ∧ t.len.toNat = 0) ∧
    (s.phase = .absorb → s.len.toNat ≤ 2 ^ 64 - 8 ∧
      (s.len.toNat < 2 ^ 64 - 8 → ∃ t, exec (.push b) s = .next t ∧ t.len.toNat = s.len.toNat + 8) ∧
      (s.len.toNat = 2 ^ 64 - 8 → exec (.push b) s = .next (s.giveRsp ⟨.lenOverflow, 0⟩)))

/-- The fields of `LEN`: a multiple of 8 is `NBLK * 512 + POS * 8`, and `POS` is the byte count modulo 64 (10_state.md section
4). -/
def Obligations.PositionIsByteCountMod64 : Prop :=
  ∀ n : Len, n.toNat % 8 = 0 →
    (pos n).val = n.toNat / 8 % 64 ∧ n.toNat = nblk n * 512 + (pos n).val * 8

/-! ## The machine as a whole -/

/-- A step runs what the decoder reads: a word on the micro-operation lines, else, once the last response has been taken, the
command at the head of the channel, which the step takes away; an instruction placed by `withFetchWord` is run by the very next
step (to present a command the host takes the response that stands there). The second clause is the spec's (30_encoding.md
sections 4 and 5, 92_eei_decisions.md D1). The model's choice, DESIGN CHOICE: that the host's next command stands in a list
and `withFetchWord` puts one at its head (notes/assumptions/3.md), that a word put on the micro-operation lines is run by `step`,
and before the command channel is looked at (notes/assumptions/4.md), and which channel a number of the opcode table stands on
(notes/assumptions/5.md). -/
def Obligations.StepRunsTheDecodedOperation : Prop :=
  (∀ (s : State) (w : UopWord) (data : Byte) (i : Instr), s.uop = some (w, data) → decode (.uop w data) = .ok i →
    step s = exec i (s.setUop none)) ∧
  (∀ (s : State) (w : CmdWord) (rest : List HostEvent) (i : Instr), s.uop = none → s.pending = none →
    s.inbox = .command w :: rest → decode (.cmd w) = .ok i → step s = exec i (s.setInbox rest)) ∧
  (∀ (s : State) (nbits w : Nat) (i : Instr), decodeTableWord nbits w = some i →
    step (s.withFetchWord nbits w) = exec i (if i.isCommand then (s.setUop none).takeRsp else s.setUop none))

/-- Between commands the block holds its state and does nothing (60_exceptions.md section 6). That such a wait is a step is the
model's choice, DESIGN CHOICE (notes/assumptions/3.md). -/
def Obligations.WaitingHoldsTheState : Prop :=
  ∀ s : State, s.uop = none → s.inbox = [] → step s = .next s

/-- The block takes no further command until the host has taken its response: however many command words are presented, while a
response stands on the channel they wait; the host then takes the response and they are still there, in order; without that the
block stays as it is, or a reset takes it out of the wait (43_driver.md section 5, 30_encoding.md section 4). That a reset takes
with it the commands presented before it is the model's choice, DESIGN CHOICE (notes/assumptions/6.md). -/
def Obligations.NoCommandUntilResponseTaken : Prop :=
  ∀ (s : State) (r : Response) (ws : List CmdWord) (rest : List HostEvent), s.uop = none → s.pending = some r →
    (s.inbox = ws.map HostEvent.command → step s = .next s) ∧
    (s.inbox = ws.map HostEvent.command ++ .take :: rest →
      ∃ t, step s = .next t ∧ t = s.takeRsp.setInbox (ws.map HostEvent.command ++ rest) ∧ t.pending = none ∧
        t.rsps = s.rsps ++ [r]) ∧
    (s.inbox = ws.map HostEvent.command ++ .reset :: rest → ∃ t, step s = .next t ∧ t.phase = .idle ∧ t.inbox = rest ∧
      t.pending = none ∧ t.rsps = s.rsps)

/-- A word is answered `ILLEGAL_CMD` exactly when it matches no row of the command map, whatever the phase, and then nothing
else changes (60_exceptions.md R172). -/
def Obligations.IllegalWordsAnswered : Prop :=
  ∀ (s : State) (w : CmdWord) (rest : List HostEvent), s.uop = none → s.pending = none → s.inbox = .command w :: rest →
    (illegalWord w → step s = .next ((s.setInbox rest).giveRsp ⟨.illegalCmd, 0⟩)) ∧
    (¬illegalWord w → ∃ t r, step s = .next t ∧ t.pending = some r ∧ t.rsps = s.rsps ∧ r.code ≠ .illegalCmd)

/-- The three checks in their order: an illegal word is answered `ILLEGAL_CMD`, else a command the phase does not admit
`BAD_PHASE`, else a `PUSH` at the longest message `LEN_OVERFLOW`, and in these three cases nothing but the channels changes; else
the answer is `OK` (60_exceptions.md R170, R173, R175). -/
def Obligations.ChecksInPriorityOrder : Prop :=
  ∀ (s : State) (w : CmdWord) (rest : List HostEvent), s.uop = none → s.pending = none → s.inbox = .command w :: rest →
    let op := (w.extractLsb' 8 8).toNat
    let badPhase := (op = 1 ∧ s.phase = .absorb) ∨ ((op = 2 ∨ op = 3) ∧ s.phase ≠ .absorb) ∨ (op = 4 ∧ s.phase ≠ .done)
    let overflow := op = 2 ∧ s.len = 0xFFFFFFFFFFFFFFF8
    (illegalWord w → step s = .next ((s.setInbox rest).giveRsp ⟨.illegalCmd, 0⟩)) ∧
    (¬illegalWord w → badPhase → step s = .next ((s.setInbox rest).giveRsp ⟨.badPhase, 0⟩)) ∧
    (¬illegalWord w → ¬badPhase → overflow → step s = .next ((s.setInbox rest).giveRsp ⟨.lenOverflow, 0⟩)) ∧
    (¬illegalWord w → ¬badPhase → ¬overflow →
      ∃ t r, step s = .next t ∧ t.pending = some r ∧ t.rsps = s.rsps ∧ r.code = .ok)

/-- A rejection changes nothing: where the response is not `OK` the state after is the state before but for the command taken
and the response given, and the data is zero (60_exceptions.md R170). -/
def Obligations.RejectionChangesNothing : Prop :=
  ∀ (s t : State) (w : CmdWord) (rest : List HostEvent) (r : Response), s.uop = none → s.pending = none →
    s.inbox = .command w :: rest → step s = .next t → t.pending = some r → r.code ≠ .ok →
    r.data = 0 ∧ t = (s.setInbox rest).giveRsp r

/-- The table of phase transitions: for each phase and command whether it is accepted and the phase after; an illegal word
leaves the phase; reset goes to `IDLE` from any phase (43_driver.md R151). -/
def Obligations.PhaseTransitionTable : Prop :=
  (∀ (s : State) (w : CmdWord) (rest : List HostEvent) (i : Instr), s.uop = none → s.pending = none →
    s.inbox = .command w :: rest → decode (.cmd w) = .ok i →
    ∃ t r, step s = .next t ∧ t.pending = some r ∧ t.rsps = s.rsps ∧ t.phase = phaseAfter s.phase i ∧
      (admits s.phase i = false → r.code = .badPhase) ∧
      (admits s.phase i = true → r.code = .ok ∨ (r.code = .lenOverflow ∧ ∃ b, i = .push b))) ∧
  (∀ (s : State) (w : CmdWord) (rest : List HostEvent) (e : DecodeError), s.uop = none → s.pending = none →
    s.inbox = .command w :: rest → decode (.cmd w) = .error e →
    ∃ t r, step s = .next t ∧ t.pending = some r ∧ t.rsps = s.rsps ∧ t.phase = s.phase ∧ r.code = .illegalCmd) ∧
  (∀ (s : State) (rest : List HostEvent), s.uop = none → s.inbox = .reset :: rest →
    ∃ t, step s = .next t ∧ t.phase = .idle)

/-- The host presents commands one after another and takes the response to each; each command is taken in order, performed
completely (the effect is that of the decoded command, and no micro-operation is left over) and answered by exactly one response,
which the host has taken before the next command is; and while a response stands on the channel no command is taken, however
many are presented (30_encoding.md R76). -/
def Obligations.OneResponsePerCommandInOrder : Prop :=
  (∀ (ws : List CmdWord) (s : State) (rest : List HostEvent), s.uop = none → s.pending = none →
    s.inbox = exchange ws ++ rest →
    ∃ rs : List Response, rs.length = ws.length ∧
      ∀ k : Nat, k ≤ ws.length → ∃ u, run (2 * k) s = .next u ∧ u.inbox = exchange (ws.drop k) ++ rest ∧
        u.uop = none ∧ u.pending = none ∧ u.rsps = s.rsps ++ rs.take k ∧
        ∀ hk : k < ws.length, ∃ v, step u = .next v ∧ v.uop = none ∧ v.pending = rs[k]? ∧ v.rsps = u.rsps ∧
          v.inbox = .take :: (exchange (ws.drop (k + 1)) ++ rest) ∧
          ∀ i : Instr, decode (.cmd ws[k]) = .ok i →
            step u = exec i (u.setInbox (.take :: (exchange (ws.drop (k + 1)) ++ rest)))) ∧
  (∀ (ws : List CmdWord) (s : State) (r : Response), s.uop = none → s.pending = some r →
    s.inbox = ws.map HostEvent.command → step s = .next s)

/-- The response word: the code in bits 35:32, the data in bits 31:0; the code is 0 to 3; the data is `H[i]` for an accepted
`READ i`, the `STAT` word for `STAT`, and zero for an accepted `INIT`, `PUSH` or `FINAL` and for every rejected command
(30_encoding.md R78). -/
def Obligations.ResponseWordContents : Prop :=
  ∀ (s : State) (w : CmdWord) (rest : List HostEvent), s.uop = none → s.pending = none → s.inbox = .command w :: rest →
    ∃ t r, step s = .next t ∧ t.pending = some r ∧ t.rsps = s.rsps ∧
      r.word.extractLsb' 0 32 = r.data ∧
      r.word.toNat / 2 ^ 32 = (match r.code with | .ok => 0 | .illegalCmd => 1 | .badPhase => 2 | .lenOverflow => 3) ∧
      (∀ i : Fin 5, r.code = .ok → w = BitVec.ofNat 16 (0x0400 + i.val) → r.data = s.h[i.val]) ∧
      (w = 0x0500 → r.data.toNat = (match s.phase with | .idle => 0 | .absorb => 1 | .done => 2)) ∧
      (r.code = .ok → w.toNat / 256 ≤ 3 → r.data = 0) ∧
      (r.code ≠ .ok → r.data = 0)

/-- Reset between two commands: `PHASE` is `IDLE`, no response is owed, what the host does later and what it has taken stand as they
are, and the power-on state waits for a command with
`PHASE = IDLE`, nothing pending and no response owed. What the other registers hold is not stated: the spec gives it no
meaning (70_reset_and_hazards.md R190; the values the model names for power-on are DESIGN CHOICE, notes/assumptions/1.md, and
no clause rests on one). -/
def Obligations.ResetGoesToIdle : Prop :=
  (∀ (s : State) (rest : List HostEvent), s.uop = none → s.inbox = .reset :: rest →
    ∃ t, step s = .next t ∧ t.phase = .idle ∧ t.inbox = rest ∧ t.pending = none ∧ t.rsps = s.rsps ∧ t.uop = none ∧
      ∀ i : Fin 5, exec (.read i) t = .next (t.giveRsp ⟨.badPhase, 0⟩)) ∧
  State.reset.phase = .idle ∧ State.reset.inbox = [] ∧ State.reset.pending = none ∧ State.reset.rsps = [] ∧
  State.reset.uop = none ∧ step State.reset = .next State.reset

/-- The digest is immutable: in `DONE` no event but an `INIT` or a reset changes anything beyond the two channels; in particular
`H` and `PHASE` stay (10_state.md section 2, 43_driver.md section 1). -/
def Obligations.DigestImmutableUntilInit : Prop :=
  ∀ (s t : State) (w : CmdWord) (rest : List HostEvent), s.uop = none → s.pending = none → s.phase = .done →
    s.inbox = .command w :: rest → w ≠ 0x0100 → step s = .next t →
    ∃ r : Response, t = (s.setInbox rest).giveRsp r

/-- The power-on state meets the invariant (that `BLK` is in its canonical form there rests on the model's own choice,
notes/assumptions/1.md). -/
def Obligations.InvariantAtReset : Prop := State.reset.Inv

/-- Every step keeps the invariant: `BLK` stays canonical, `LEN` stays a multiple of 8 while it has a meaning, no
micro-operation word outlives a command, every rejection carried zero data (10_state.md sections 1 and 4, 30_encoding.md
section 5). -/
def Obligations.StepKeepsInvariant : Prop :=
  ∀ s t : State, s.Inv → step s = .next t → t.Inv

/-- From a state that meets the invariant every run goes on: no fault, no refusal, whatever the host presents (60_exceptions.md
section 3, 70_reset_and_hazards.md section 3). -/
def Obligations.SoundRunsNeverStop : Prop :=
  ∀ (n : Nat) (s : State), s.Inv → ∃ t, run n s = .next t ∧ t.Inv

/-! ## Padding, the digest, and independence -/

/-- The padded stream: the message, the marker, the least number of zeros, the 64-bit big-endian bit length; it is `N` whole
blocks, and block `k` is its bytes `64k` to `64k + 63` packed big-endian (40_padder.md R100). -/
def Obligations.PaddedStreamContract : Prop :=
  ∀ m : List Byte, m.length < 2 ^ 61 →
    let n := (m.length + 8) / 64 + 1
    ∃ (z : Nat) (field : List Byte), z ≤ 63 ∧ (m.length + 1 + z) % 64 = 56 ∧
      (∀ z' : Nat, (m.length + 1 + z') % 64 = 56 → z ≤ z') ∧
      padBytes m = m ++ [0x80] ++ List.replicate z 0 ++ field ∧ field.length = 8 ∧
      field.foldl (fun acc b => acc * 256 + b.toNat) 0 = m.length * 8 ∧
      (padBytes m).length = 64 * n ∧ (pad m).length = n ∧
      ∀ (k : Nat) (hk : k < (pad m).length) (i : Fin 16),
        (pad m)[k][i.val] = be32 ((padBytes m).getD (64 * k + 4 * i.val) 0) ((padBytes m).getD (64 * k + 4 * i.val + 1) 0)
          ((padBytes m).getD (64 * k + 4 * i.val + 2) 0) ((padBytes m).getD (64 * k + 4 * i.val + 3) 0)

/-- THE BLOCK COMPUTES SHA-1: from `IDLE` or `DONE`, the commands `INIT`, one `PUSH` for each byte of any message of at most
`2^61 - 1` bytes, `FINAL`, with the response to each taken by the host, are all accepted, end in `DONE` and leave `H = sha1(M)`,
which `READ` returns word by word (43_driver.md R155). -/
def Obligations.MessageCommandsComputeSha1 : Prop :=
  ∀ (m : List Byte) (s : State) (rest : List HostEvent), m.length ≤ 2 ^ 61 - 1 → s.uop = none → s.pending = none →
    memWf s.blk = true → s.phase ≠ .absorb →
    s.inbox = exchange ([0x0100] ++ m.map (fun b => 0x0200 + b.setWidth 16) ++ [0x0300]) ++ rest →
    ∃ t, run (2 * (m.length + 2)) s = .next t ∧ t.phase = .done ∧ t.h = sha1 m ∧ t.len.toNat = 8 * m.length ∧
      t.inbox = rest ∧ t.pending = none ∧ t.rsps = s.rsps ++ List.replicate (m.length + 2) ⟨.ok, 0⟩ ∧
      ∀ i : Fin 5, exec (.read i) t = .next (t.giveRsp ⟨.ok, (sha1 m)[i.val]⟩)

/-- Nothing stale reaches a block: two states that agree on the phase, on `H`, on `LEN` and on the bytes below `LEN[8:3]` give the
same `H` after `FINAL` and after any `PUSH`, whatever `W`, `A` to `E` and the rest of `BLK` held (40_padder.md section 4). -/
def Obligations.StaleBytesNeverEnterABlock : Prop :=
  ∀ (s t : State) (i : Instr), memWf s.blk = true → memWf t.blk = true → s.phase = .absorb → t.phase = .absorb → s.h = t.h →
    s.len = t.len → (∀ a : Nat, a < (pos s.len).val → readByte s.blk a = readByte t.blk a) →
    (i = .final ∨ ∃ b, i = .push b) →
    ∃ s' t', exec i s = .next s' ∧ exec i t = .next t' ∧ s'.h = t'.h ∧ s'.len = t'.len ∧ s'.phase = t'.phase ∧
      (s'.phase = .absorb → ∀ a : Nat, a < (pos s'.len).val → readByte s'.blk a = readByte t'.blk a)

/-- Every step keeps agreement: two states that agree on what can still reach a response both go on, to two states that agree,
and have given the same responses (10_state.md section 10, 43_driver.md section 2). -/
def Obligations.StepKeepsAgreement : Prop :=
  ∀ s t : State, Agree s t → ∃ s' t', step s = .next s' ∧ step t = .next t' ∧ Agree s' t'

/-- The unspecified reset values never reach a response: from any two states in `IDLE`, whatever their registers hold, the same
events give the same responses, for any number of steps and with any resets among them (10_state.md R41). -/
def Obligations.UnspecifiedValuesNeverReachAResponse : Prop :=
  ∀ (n : Nat) (s t : State), s.phase = .idle → t.phase = .idle → s.uop = none → t.uop = none → memWf s.blk = true →
    memWf t.blk = true → s.inbox = t.inbox → s.pending = t.pending → s.rsps = t.rsps →
    ∃ s' t', run n s = .next s' ∧ run n t = .next t' ∧ s'.pending = t'.pending ∧ s'.rsps = t'.rsps

/-- Messages do not influence each other: from any two states that are not in the middle of a message, the same events beginning
with `INIT` give the same responses, whatever earlier messages or resets left in any register (43_driver.md R156). -/
def Obligations.MessagesDoNotInfluenceEachOther : Prop :=
  ∀ (n : Nat) (s t : State) (rest : List HostEvent), s.phase ≠ .absorb → t.phase ≠ .absorb → s.uop = none → t.uop = none →
    s.pending = none → t.pending = none → memWf s.blk = true → memWf t.blk = true → s.inbox = .command 0x0100 :: rest →
    t.inbox = .command 0x0100 :: rest →
    ∃ s' t' rs, run n s = .next s' ∧ run n t = .next t' ∧ s'.pending = t'.pending ∧ s'.rsps = s.rsps ++ rs ∧
      t'.rsps = t.rsps ++ rs

/-- Assembly lines stand for the command words of the table of 30_encoding.md section 7 (`INIT`, `PUSH`, `FINAL`, `READ`, `STAT`,
`.word`), an operand out of range does not assemble, and `MSG`, `MSGX`, `FILL` and `DIGEST` expand as stated there. -/
def Obligations.AssemblyLinesAsTabled : Prop :=
  AsmLine.init.assemble = some [0x0100] ∧ AsmLine.final.assemble = some [0x0300] ∧ AsmLine.stat.assemble = some [0x0500] ∧
  (∀ n : Nat, (n ≤ 255 → ∃ w : CmdWord, (AsmLine.push n).assemble = some [w] ∧ w.toNat = 0x0200 + n ∧
      decode (.cmd w) = .ok (.push (BitVec.ofNat 8 n))) ∧
    (255 < n → (AsmLine.push n).assemble = none)) ∧
  (∀ i : Nat, (∀ h : i < 5, ∃ w : CmdWord, (AsmLine.read i).assemble = some [w] ∧ w.toNat = 0x0400 + i ∧
      decode (.cmd w) = .ok (.read ⟨i, h⟩)) ∧
    (4 < i → (AsmLine.read i).assemble = none)) ∧
  (∀ n : Nat, (n ≤ 0xFFFF → ∃ w : CmdWord, (AsmLine.word n).assemble = some [w] ∧ w.toNat = n) ∧
    (0xFFFF < n → (AsmLine.word n).assemble = none)) ∧
  (∀ text : List Char, (∀ c ∈ text, 0x20 ≤ c.toNat ∧ c.toNat ≤ 0x7E) →
    ∃ ws : List CmdWord, (AsmLine.msg text).assemble = some ([0x0100] ++ ws ++ [0x0300]) ∧
      ws.map (fun w => w.toNat) = text.map (fun c => 0x0200 + c.toNat)) ∧
  (∀ (text : List Char) (c : Char), c ∈ text → (c.toNat < 0x20 ∨ 0x7E < c.toNat) → (AsmLine.msg text).assemble = none) ∧
  (∀ bytes : List Byte, (AsmLine.msgx bytes).assemble =
    some ([0x0100] ++ bytes.map (fun b => 0x0200 + b.setWidth 16) ++ [0x0300])) ∧
  (∀ (n : Nat) (b : Byte), (AsmLine.fill n b.toNat).assemble = some (List.replicate n (0x0200 + b.setWidth 16))) ∧
  (∀ n b : Nat, 255 < b → (AsmLine.fill n b).assemble = none) ∧
  AsmLine.digest.assemble = some [0x0400, 0x0401, 0x0402, 0x0403, 0x0404]
end

