-- ==== Sys2Proof/Laws/Decode.lean ====
section
/-! SUPPORT. What the decoder can answer, said once for each channel, with the fields as slices of the word. -/

namespace Sys2Proof

theorem cmdOp_eq (w : CmdWord) : cmdOp w = (w.extractLsb' 8 8).toNat := by
  have := w.isLt
  simp [cmdOp, BitVec.extractLsb'_toNat, Nat.shiftRight_eq_div_pow]
  omega

theorem cmdX_eq (w : CmdWord) : cmdX w = (w.extractLsb' 0 8).toNat := by
  simp [cmdX, BitVec.extractLsb'_toNat]

theorem uopUnit_eq (w : UopWord) : uopUnit w = (w.extractLsb' 9 2).toNat := by
  have := w.isLt
  simp [uopUnit, BitVec.extractLsb'_toNat, Nat.shiftRight_eq_div_pow]
  omega

theorem uopOp_eq (w : UopWord) : uopOp w = (w.extractLsb' 7 2).toNat := by
  simp [uopOp, BitVec.extractLsb'_toNat, Nat.shiftRight_eq_div_pow]

theorem uopIdx_eq (w : UopWord) : uopIdx w = (w.extractLsb' 0 7).toNat := by
  simp [uopIdx, BitVec.extractLsb'_toNat]

/-- The six answers to a command word. -/
theorem decodeCmd_cases (w : CmdWord) :
    (cmdOp w = 1 ∧ cmdX w = 0 ∧ decode (.cmd w) = .ok .init) ∨
    (cmdOp w = 2 ∧ decode (.cmd w) = .ok (.push (BitVec.ofNat 8 (cmdX w)))) ∨
    (cmdOp w = 3 ∧ cmdX w = 0 ∧ decode (.cmd w) = .ok .final) ∨
    (∃ h : cmdX w < 5, cmdOp w = 4 ∧ decode (.cmd w) = .ok (.read ⟨cmdX w, h⟩)) ∨
    (cmdOp w = 5 ∧ cmdX w = 0 ∧ decode (.cmd w) = .ok .stat) ∨
    (((cmdOp w = 1 ∨ cmdOp w = 3 ∨ cmdOp w = 5) ∧ cmdX w ≠ 0 ∨ cmdOp w = 4 ∧ 5 ≤ cmdX w ∨ cmdOp w = 0 ∨ 5 < cmdOp w) ∧
      decode (.cmd w) = .error .illegalCmd) := by
  simp only [decode, decodeCmd]
  generalize cmdOp w = op
  generalize cmdX w = x
  rcases op with _ | _ | _ | _ | _ | _ | op
  · simp
  · by_cases hx : x = 0 <;> simp [hx]
  · simp
  · by_cases hx : x = 0 <;> simp [hx]
  · by_cases hx : x < 5 <;> simp [hx, indexBelow]
    omega
  · by_cases hx : x = 0 <;> simp [hx]
  · simp

theorem indexBelow_eq_some {n idx : Nat} {i : Fin n} : indexBelow n idx = some i ↔ idx = i.val := by
  unfold indexBelow
  split
  · rename_i h
    simp [Fin.ext_iff]
  · have := i.isLt
    simp
    omega

theorem indexBelow_eq_none {n idx : Nat} : indexBelow n idx = none ↔ n ≤ idx := by
  simp [indexBelow]

/-- The nine micro-operations a word can name. -/
theorem decodeUop_cases (w : UopWord) (data : Byte) :
    (∃ p : Fin 64, uopUnit w = 0 ∧ uopOp w = 0 ∧ uopIdx w = p.val ∧ decode (.uop w data) = .ok (.padPutb p data)) ∨
    (∃ p : Fin 64, uopUnit w = 0 ∧ uopOp w = 1 ∧ uopIdx w = p.val ∧ decode (.uop w data) = .ok (.padMark p)) ∨
    (∃ p : Fin 64, uopUnit w = 0 ∧ uopOp w = 2 ∧ uopIdx w = p.val ∧ decode (.uop w data) = .ok (.padZero p)) ∨
    (uopUnit w = 0 ∧ uopOp w = 3 ∧ uopIdx w = 0 ∧ decode (.uop w data) = .ok .padLen) ∨
    (∃ i : Fin 16, uopUnit w = 1 ∧ uopOp w = 0 ∧ uopIdx w = i.val ∧ decode (.uop w data) = .ok (.wexLoad i)) ∨
    (∃ i : Fin 80, 16 ≤ i.val ∧ uopUnit w = 1 ∧ uopOp w = 1 ∧ uopIdx w = i.val ∧ decode (.uop w data) = .ok (.wexExp i)) ∨
    (uopUnit w = 2 ∧ uopOp w = 0 ∧ uopIdx w = 0 ∧ decode (.uop w data) = .ok .cmpInitv) ∨
    (∃ t : Fin 80, uopUnit w = 2 ∧ uopOp w = 1 ∧ uopIdx w = t.val ∧ decode (.uop w data) = .ok (.cmpRnd t)) ∨
    (uopUnit w = 2 ∧ uopOp w = 2 ∧ uopIdx w = 0 ∧ decode (.uop w data) = .ok .cmpFold) ∨
    ((uopUnit w = 3 ∨ (uopUnit w = 1 ∧ (uopOp w = 2 ∨ uopOp w = 3)) ∨ (uopUnit w = 2 ∧ uopOp w = 3) ∨
      (uopUnit w = 0 ∧ uopOp w ≤ 2 ∧ 63 < uopIdx w) ∨ (uopUnit w = 1 ∧ uopOp w = 0 ∧ 15 < uopIdx w) ∨
      (uopUnit w = 1 ∧ uopOp w = 1 ∧ (uopIdx w < 16 ∨ 79 < uopIdx w)) ∨ (uopUnit w = 2 ∧ uopOp w = 1 ∧ 79 < uopIdx w) ∨
      (uopUnit w = 0 ∧ uopOp w = 3 ∧ uopIdx w ≠ 0) ∨ (uopUnit w = 2 ∧ (uopOp w = 0 ∨ uopOp w = 2) ∧ uopIdx w ≠ 0)) ∧
      decode (.uop w data) = .error .reservedUop) := by
  have hu : uopUnit w < 4 := by have := w.isLt; unfold uopUnit; omega
  have ho : uopOp w < 4 := Nat.mod_lt _ (by decide)
  simp only [decode, decodeUop]
  generalize uopUnit w = unit at *
  generalize uopOp w = op at *
  generalize uopIdx w = idx
  rcases unit with _ | _ | _ | _ | unit <;> rcases op with _ | _ | _ | _ | op <;> try omega
  · by_cases h : idx < 64
    · exact .inl ⟨⟨idx, h⟩, rfl, rfl, rfl, by simp [indexBelow, h]⟩
    · simp [indexBelow, h]; omega
  · by_cases h : idx < 64
    · exact .inr (.inl ⟨⟨idx, h⟩, rfl, rfl, rfl, by simp [indexBelow, h]⟩)
    · simp [indexBelow, h]; omega
  · by_cases h : idx < 64
    · exact .inr (.inr (.inl ⟨⟨idx, h⟩, rfl, rfl, rfl, by simp [indexBelow, h]⟩))
    · simp [indexBelow, h]; omega
  · by_cases h : idx = 0 <;> simp [h]
  · by_cases h : idx < 16
    · exact .inr (.inr (.inr (.inr (.inl ⟨⟨idx, h⟩, rfl, rfl, rfl, by simp [indexBelow, h]⟩))))
    · simp [indexBelow, h]; omega
  · by_cases h : 16 ≤ idx
    · by_cases h' : idx < 80
      · exact .inr (.inr (.inr (.inr (.inr (.inl ⟨⟨idx, h'⟩, h, rfl, rfl, rfl, by simp [indexBelow, h, h']⟩)))))
      · simp [indexBelow, h']; omega
    · simp [h]; omega
  · simp
  · simp
  · by_cases h : idx = 0 <;> simp [h]
  · by_cases h : idx < 80
    · exact .inr (.inr (.inr (.inr (.inr (.inr (.inr (.inl ⟨⟨idx, h⟩, rfl, rfl, rfl, by simp [indexBelow, h]⟩)))))))
    · simp [indexBelow, h]; omega
  · by_cases h : idx = 0 <;> simp [h]
  · simp
  · simp
  · simp
  · simp
  · simp

end Sys2Proof
end

