-- ==== Sys2Proof/Laws/Memory.lean ====
section
/-! SUPPORT. The laws of `BLK` as a memory: a read after a write, the canonical form and that every operation keeps it,
and that canonical memories which read alike are equal. -/

namespace Sys2Proof.Machine

theorem memWfFrom_cons (lo a : Nat) (v : Byte) (m : Mem) :
    memWfFrom lo ((a, v) :: m) = true ↔ lo ≤ a ∧ a < blkSize ∧ v ≠ unlisted ∧ memWfFrom (a + 1) m = true := by
  simp [memWfFrom, and_assoc]

theorem memWfFrom_mono {lo lo' : Nat} {m : Mem} (hle : lo' ≤ lo) (h : memWfFrom lo m = true) : memWfFrom lo' m = true := by
  cases m with
  | nil => rfl
  | cons x m =>
    obtain ⟨a, v⟩ := x
    rw [memWfFrom_cons] at h ⊢
    exact ⟨hle.trans h.1, h.2⟩

/-- Below its first address a canonical memory reads as unlisted. -/
theorem readByte_below {lo a : Nat} {m : Mem} (h : memWfFrom lo m = true) (ha : a < lo) : readByte m a = unlisted := by
  induction m generalizing lo with
  | nil => rfl
  | cons x m ih =>
    obtain ⟨b, v⟩ := x
    rw [memWfFrom_cons] at h
    have hne : b ≠ a := by omega
    simp only [readByte, if_neg hne]
    exact ih h.2.2.2 (by omega)

theorem readByte_writeByte_other (m : Mem) {a x : Nat} (v : Byte) (hne : x ≠ a) :
    readByte (writeByte m a v) x = readByte m x := by
  induction m with
  | nil => unfold writeByte; split <;> simp [readByte, Ne.symm hne]
  | cons y m ih =>
    obtain ⟨b, u⟩ := y
    unfold writeByte
    split
    · split <;> simp [readByte, Ne.symm hne]
    · split
      · subst_vars; split <;> simp [readByte, Ne.symm hne]
      · simp only [readByte, ih]

theorem readByte_writeByte_same {lo : Nat} {m : Mem} (h : memWfFrom lo m = true) (a : Nat) (v : Byte) :
    readByte (writeByte m a v) a = v := by
  induction m generalizing lo with
  | nil => unfold writeByte; split <;> simp_all [readByte]
  | cons y m ih =>
    obtain ⟨b, u⟩ := y
    rw [memWfFrom_cons] at h
    unfold writeByte
    split
    · rename_i hlt
      split
      · rename_i hv
        rw [hv]
        exact readByte_below (lo := b) ((memWfFrom_cons b b u m).2 ⟨le_rfl, h.2⟩) hlt
      · simp [readByte]
    · split
      · rename_i hab
        split
        · rename_i hv
          rw [hv, hab]
          exact readByte_below h.2.2.2 (Nat.lt_succ_self b)
        · simp [readByte]
      · rename_i hab
        simp only [readByte, if_neg (Ne.symm hab)]
        exact ih h.2.2.2

/-- What a byte write does to every byte of a canonical memory. -/
theorem readByte_writeByte {m : Mem} (h : memWf m = true) (a x : Nat) (v : Byte) :
    readByte (writeByte m a v) x = if x = a then v else readByte m x := by
  split
  · subst_vars; exact readByte_writeByte_same h _ v
  · exact readByte_writeByte_other m v ‹_›

theorem writeByte_wfFrom {lo a : Nat} {m : Mem} (h : memWfFrom lo m = true) (hlo : lo ≤ a) (ha : a < blkSize) (v : Byte) :
    memWfFrom lo (writeByte m a v) = true := by
  induction m generalizing lo with
  | nil =>
    unfold writeByte
    split
    · rfl
    · exact (memWfFrom_cons ..).2 ⟨hlo, ha, ‹_›, rfl⟩
  | cons y m ih =>
    obtain ⟨b, u⟩ := y
    have h' := (memWfFrom_cons ..).1 h
    unfold writeByte
    split
    · split
      · exact h
      · exact (memWfFrom_cons ..).2 ⟨hlo, ha, ‹_›, (memWfFrom_cons ..).2 ⟨by omega, h'.2⟩⟩
    · split
      · subst_vars
        split
        · exact memWfFrom_mono (by omega) h'.2.2.2
        · exact (memWfFrom_cons ..).2 ⟨hlo, ha, ‹_›, h'.2.2.2⟩
      · exact (memWfFrom_cons ..).2 ⟨h'.1, h'.2.1, h'.2.2.1, ih h'.2.2.2 (by omega)⟩

/-- A byte write inside `BLK` keeps the canonical form. -/
theorem writeByte_wf {m : Mem} (h : memWf m = true) {a : Nat} (ha : a < blkSize) (v : Byte) : memWf (writeByte m a v) = true :=
  writeByte_wfFrom h (Nat.zero_le a) ha v

/-- Canonical memories that read alike are equal. -/
theorem mem_ext {lo : Nat} {m m' : Mem} (h : memWfFrom lo m = true) (h' : memWfFrom lo m' = true)
    (hr : ∀ a, readByte m a = readByte m' a) : m = m' := by
  induction m generalizing lo m' with
  | nil =>
    cases m' with
    | nil => rfl
    | cons y m' =>
      obtain ⟨b, u⟩ := y
      have := hr b
      simp [readByte] at this
      exact absurd this.symm ((memWfFrom_cons ..).1 h').2.2.1
  | cons x m ih =>
    obtain ⟨a, v⟩ := x
    have h0 := (memWfFrom_cons ..).1 h
    cases m' with
    | nil =>
      have := hr a
      simp [readByte] at this
      exact absurd this h0.2.2.1
    | cons y m' =>
      obtain ⟨b, u⟩ := y
      have h1 := (memWfFrom_cons ..).1 h'
      have hab : a = b := by
        rcases Nat.lt_trichotomy a b with hlt | heq | hgt
        · have := hr a
          rw [readByte_below (m := (b, u) :: m') (lo := b) ((memWfFrom_cons ..).2 ⟨le_rfl, h1.2⟩) hlt] at this
          simp [readByte] at this
          exact absurd this h0.2.2.1
        · exact heq
        · have := hr b
          rw [readByte_below (m := (a, v) :: m) (lo := a) ((memWfFrom_cons ..).2 ⟨le_rfl, h0.2⟩) hgt] at this
          simp [readByte] at this
          exact absurd this.symm h1.2.2.1
      subst hab
      have hv : v = u := by simpa [readByte] using hr a
      subst hv
      have : m = m' := ih h0.2.2.2 h1.2.2.2 fun x => by
        by_cases hx : x = a
        · subst hx
          rw [readByte_below h0.2.2.2 (Nat.lt_succ_self x), readByte_below h1.2.2.2 (Nat.lt_succ_self x)]
        · have := hr x
          simpa [readByte, Ne.symm hx] using this
      rw [this]

/-- Writing one byte after another inside `BLK` keeps the canonical form. -/
theorem foldl_writeByte_wf (f : Nat → Nat) (g : Nat → Byte) (ks : List Nat) (hf : ∀ k ∈ ks, f k < blkSize) {m : Mem}
    (h : memWf m = true) : memWf (ks.foldl (fun m k => writeByte m (f k) (g k)) m) = true := by
  induction ks generalizing m with
  | nil => exact h
  | cons k ks ih => exact ih (fun j hj => hf j (by simp [hj])) (writeByte_wf h (hf k (by simp)) _)

/-- An eight-byte write inside `BLK` keeps the canonical form. -/
theorem writeDword_wf {m : Mem} (h : memWf m = true) {a : Nat} (ha : a + 8 ≤ blkSize) (v : Len) :
    memWf (writeDword m a v) = true :=
  foldl_writeByte_wf (fun k => a + k) (dwordByte v) _ (fun k hk => by simp at hk; omega) h

/-- What an eight-byte write does to every byte of a canonical memory. -/
theorem readByte_writeDword {m : Mem} (h : memWf m = true) {a : Nat} (ha : a + 8 ≤ blkSize) (v : Len) (x : Nat) :
    readByte (writeDword m a v) x = if a ≤ x ∧ x < a + 8 then dwordByte v (x - a) else readByte m x := by
  have key : ∀ n ≤ 8, memWf ((List.range n).foldl (fun m k => writeByte m (a + k) (dwordByte v k)) m) = true ∧
      readByte ((List.range n).foldl (fun m k => writeByte m (a + k) (dwordByte v k)) m) x
        = if a ≤ x ∧ x < a + n then dwordByte v (x - a) else readByte m x := by
    intro n
    induction n with
    | zero =>
      intro _
      refine ⟨h, ?_⟩
      rw [if_neg (by omega)]
      rfl
    | succ n ih =>
      intro hn
      obtain ⟨hwf, hread⟩ := ih (by omega)
      rw [List.range_succ, List.foldl_append]
      refine ⟨writeByte_wf hwf (by omega) _, ?_⟩
      simp only [List.foldl_cons, List.foldl_nil]
      rw [readByte_writeByte hwf, hread]
      by_cases hx : x = a + n
      · subst hx; simp
      · rw [if_neg hx]
        by_cases h1 : a ≤ x ∧ x < a + n
        · rw [if_pos h1, if_pos (by omega)]
        · rw [if_neg h1, if_neg (by omega)]
  exact (key 8 le_rfl).2

/-- The free contents after a reset event are in canonical form. -/
theorem freeBlk_wf (s : State) : memWf (freeBlk s) = true :=
  foldl_writeByte_wf (fun p => p) (fun p => Config.resetByte s.resets p (readByte s.blk p)) _ (fun p hp => by simpa using hp) rfl

end Sys2Proof.Machine
end

