-- ==== Sys2Proof/Laws/State.lean ====
section
/-! SUPPORT. Every field of State after every update: the field that is written holds the new value, every other holds
the old one. Each proof is `rfl` in parentheses: `simp` then cites the lemma, where with a bare `rfl` it would leave the kernel
to compare the states by evaluation, eighty rounds included. -/

namespace Sys2Proof.Machine

variable (s : State)

@[simp] theorem State.setH_h (x : Vector Word 5) : (s.setH x).h = x := (rfl)
@[simp] theorem State.setH_a (x : Vector Word 5) : (s.setH x).a = s.a := (rfl)
@[simp] theorem State.setH_b (x : Vector Word 5) : (s.setH x).b = s.b := (rfl)
@[simp] theorem State.setH_c (x : Vector Word 5) : (s.setH x).c = s.c := (rfl)
@[simp] theorem State.setH_d (x : Vector Word 5) : (s.setH x).d = s.d := (rfl)
@[simp] theorem State.setH_e (x : Vector Word 5) : (s.setH x).e = s.e := (rfl)
@[simp] theorem State.setH_w (x : Vector Word 5) : (s.setH x).w = s.w := (rfl)
@[simp] theorem State.setH_blk (x : Vector Word 5) : (s.setH x).blk = s.blk := (rfl)
@[simp] theorem State.setH_len (x : Vector Word 5) : (s.setH x).len = s.len := (rfl)
@[simp] theorem State.setH_phase (x : Vector Word 5) : (s.setH x).phase = s.phase := (rfl)
@[simp] theorem State.setH_uop (x : Vector Word 5) : (s.setH x).uop = s.uop := (rfl)
@[simp] theorem State.setH_inbox (x : Vector Word 5) : (s.setH x).inbox = s.inbox := (rfl)
@[simp] theorem State.setH_pending (x : Vector Word 5) : (s.setH x).pending = s.pending := (rfl)
@[simp] theorem State.setH_rsps (x : Vector Word 5) : (s.setH x).rsps = s.rsps := (rfl)
@[simp] theorem State.setH_resets (x : Vector Word 5) : (s.setH x).resets = s.resets := (rfl)

@[simp] theorem State.setVars_h (va vb vc vd ve : Word) : (s.setVars va vb vc vd ve).h = s.h := (rfl)
@[simp] theorem State.setVars_a (va vb vc vd ve : Word) : (s.setVars va vb vc vd ve).a = va := (rfl)
@[simp] theorem State.setVars_b (va vb vc vd ve : Word) : (s.setVars va vb vc vd ve).b = vb := (rfl)
@[simp] theorem State.setVars_c (va vb vc vd ve : Word) : (s.setVars va vb vc vd ve).c = vc := (rfl)
@[simp] theorem State.setVars_d (va vb vc vd ve : Word) : (s.setVars va vb vc vd ve).d = vd := (rfl)
@[simp] theorem State.setVars_e (va vb vc vd ve : Word) : (s.setVars va vb vc vd ve).e = ve := (rfl)
@[simp] theorem State.setVars_w (va vb vc vd ve : Word) : (s.setVars va vb vc vd ve).w = s.w := (rfl)
@[simp] theorem State.setVars_blk (va vb vc vd ve : Word) : (s.setVars va vb vc vd ve).blk = s.blk := (rfl)
@[simp] theorem State.setVars_len (va vb vc vd ve : Word) : (s.setVars va vb vc vd ve).len = s.len := (rfl)
@[simp] theorem State.setVars_phase (va vb vc vd ve : Word) : (s.setVars va vb vc vd ve).phase = s.phase := (rfl)
@[simp] theorem State.setVars_uop (va vb vc vd ve : Word) : (s.setVars va vb vc vd ve).uop = s.uop := (rfl)
@[simp] theorem State.setVars_inbox (va vb vc vd ve : Word) : (s.setVars va vb vc vd ve).inbox = s.inbox := (rfl)
@[simp] theorem State.setVars_pending (va vb vc vd ve : Word) : (s.setVars va vb vc vd ve).pending = s.pending := (rfl)
@[simp] theorem State.setVars_rsps (va vb vc vd ve : Word) : (s.setVars va vb vc vd ve).rsps = s.rsps := (rfl)
@[simp] theorem State.setVars_resets (va vb vc vd ve : Word) : (s.setVars va vb vc vd ve).resets = s.resets := (rfl)

@[simp] theorem State.setW_h (x : Vector Word 80) : (s.setW x).h = s.h := (rfl)
@[simp] theorem State.setW_a (x : Vector Word 80) : (s.setW x).a = s.a := (rfl)
@[simp] theorem State.setW_b (x : Vector Word 80) : (s.setW x).b = s.b := (rfl)
@[simp] theorem State.setW_c (x : Vector Word 80) : (s.setW x).c = s.c := (rfl)
@[simp] theorem State.setW_d (x : Vector Word 80) : (s.setW x).d = s.d := (rfl)
@[simp] theorem State.setW_e (x : Vector Word 80) : (s.setW x).e = s.e := (rfl)
@[simp] theorem State.setW_w (x : Vector Word 80) : (s.setW x).w = x := (rfl)
@[simp] theorem State.setW_blk (x : Vector Word 80) : (s.setW x).blk = s.blk := (rfl)
@[simp] theorem State.setW_len (x : Vector Word 80) : (s.setW x).len = s.len := (rfl)
@[simp] theorem State.setW_phase (x : Vector Word 80) : (s.setW x).phase = s.phase := (rfl)
@[simp] theorem State.setW_uop (x : Vector Word 80) : (s.setW x).uop = s.uop := (rfl)
@[simp] theorem State.setW_inbox (x : Vector Word 80) : (s.setW x).inbox = s.inbox := (rfl)
@[simp] theorem State.setW_pending (x : Vector Word 80) : (s.setW x).pending = s.pending := (rfl)
@[simp] theorem State.setW_rsps (x : Vector Word 80) : (s.setW x).rsps = s.rsps := (rfl)
@[simp] theorem State.setW_resets (x : Vector Word 80) : (s.setW x).resets = s.resets := (rfl)

@[simp] theorem State.setBlk_h (x : Mem) : (s.setBlk x).h = s.h := (rfl)
@[simp] theorem State.setBlk_a (x : Mem) : (s.setBlk x).a = s.a := (rfl)
@[simp] theorem State.setBlk_b (x : Mem) : (s.setBlk x).b = s.b := (rfl)
@[simp] theorem State.setBlk_c (x : Mem) : (s.setBlk x).c = s.c := (rfl)
@[simp] theorem State.setBlk_d (x : Mem) : (s.setBlk x).d = s.d := (rfl)
@[simp] theorem State.setBlk_e (x : Mem) : (s.setBlk x).e = s.e := (rfl)
@[simp] theorem State.setBlk_w (x : Mem) : (s.setBlk x).w = s.w := (rfl)
@[simp] theorem State.setBlk_blk (x : Mem) : (s.setBlk x).blk = x := (rfl)
@[simp] theorem State.setBlk_len (x : Mem) : (s.setBlk x).len = s.len := (rfl)
@[simp] theorem State.setBlk_phase (x : Mem) : (s.setBlk x).phase = s.phase := (rfl)
@[simp] theorem State.setBlk_uop (x : Mem) : (s.setBlk x).uop = s.uop := (rfl)
@[simp] theorem State.setBlk_inbox (x : Mem) : (s.setBlk x).inbox = s.inbox := (rfl)
@[simp] theorem State.setBlk_pending (x : Mem) : (s.setBlk x).pending = s.pending := (rfl)
@[simp] theorem State.setBlk_rsps (x : Mem) : (s.setBlk x).rsps = s.rsps := (rfl)
@[simp] theorem State.setBlk_resets (x : Mem) : (s.setBlk x).resets = s.resets := (rfl)

@[simp] theorem State.setLen_h (x : Len) : (s.setLen x).h = s.h := (rfl)
@[simp] theorem State.setLen_a (x : Len) : (s.setLen x).a = s.a := (rfl)
@[simp] theorem State.setLen_b (x : Len) : (s.setLen x).b = s.b := (rfl)
@[simp] theorem State.setLen_c (x : Len) : (s.setLen x).c = s.c := (rfl)
@[simp] theorem State.setLen_d (x : Len) : (s.setLen x).d = s.d := (rfl)
@[simp] theorem State.setLen_e (x : Len) : (s.setLen x).e = s.e := (rfl)
@[simp] theorem State.setLen_w (x : Len) : (s.setLen x).w = s.w := (rfl)
@[simp] theorem State.setLen_blk (x : Len) : (s.setLen x).blk = s.blk := (rfl)
@[simp] theorem State.setLen_len (x : Len) : (s.setLen x).len = x := (rfl)
@[simp] theorem State.setLen_phase (x : Len) : (s.setLen x).phase = s.phase := (rfl)
@[simp] theorem State.setLen_uop (x : Len) : (s.setLen x).uop = s.uop := (rfl)
@[simp] theorem State.setLen_inbox (x : Len) : (s.setLen x).inbox = s.inbox := (rfl)
@[simp] theorem State.setLen_pending (x : Len) : (s.setLen x).pending = s.pending := (rfl)
@[simp] theorem State.setLen_rsps (x : Len) : (s.setLen x).rsps = s.rsps := (rfl)
@[simp] theorem State.setLen_resets (x : Len) : (s.setLen x).resets = s.resets := (rfl)

@[simp] theorem State.setPhase_h (x : Phase) : (s.setPhase x).h = s.h := (rfl)
@[simp] theorem State.setPhase_a (x : Phase) : (s.setPhase x).a = s.a := (rfl)
@[simp] theorem State.setPhase_b (x : Phase) : (s.setPhase x).b = s.b := (rfl)
@[simp] theorem State.setPhase_c (x : Phase) : (s.setPhase x).c = s.c := (rfl)
@[simp] theorem State.setPhase_d (x : Phase) : (s.setPhase x).d = s.d := (rfl)
@[simp] theorem State.setPhase_e (x : Phase) : (s.setPhase x).e = s.e := (rfl)
@[simp] theorem State.setPhase_w (x : Phase) : (s.setPhase x).w = s.w := (rfl)
@[simp] theorem State.setPhase_blk (x : Phase) : (s.setPhase x).blk = s.blk := (rfl)
@[simp] theorem State.setPhase_len (x : Phase) : (s.setPhase x).len = s.len := (rfl)
@[simp] theorem State.setPhase_phase (x : Phase) : (s.setPhase x).phase = x := (rfl)
@[simp] theorem State.setPhase_uop (x : Phase) : (s.setPhase x).uop = s.uop := (rfl)
@[simp] theorem State.setPhase_inbox (x : Phase) : (s.setPhase x).inbox = s.inbox := (rfl)
@[simp] theorem State.setPhase_pending (x : Phase) : (s.setPhase x).pending = s.pending := (rfl)
@[simp] theorem State.setPhase_rsps (x : Phase) : (s.setPhase x).rsps = s.rsps := (rfl)
@[simp] theorem State.setPhase_resets (x : Phase) : (s.setPhase x).resets = s.resets := (rfl)

@[simp] theorem State.setUop_h (x : Option (UopWord × Byte)) : (s.setUop x).h = s.h := (rfl)
@[simp] theorem State.setUop_a (x : Option (UopWord × Byte)) : (s.setUop x).a = s.a := (rfl)
@[simp] theorem State.setUop_b (x : Option (UopWord × Byte)) : (s.setUop x).b = s.b := (rfl)
@[simp] theorem State.setUop_c (x : Option (UopWord × Byte)) : (s.setUop x).c = s.c := (rfl)
@[simp] theorem State.setUop_d (x : Option (UopWord × Byte)) : (s.setUop x).d = s.d := (rfl)
@[simp] theorem State.setUop_e (x : Option (UopWord × Byte)) : (s.setUop x).e = s.e := (rfl)
@[simp] theorem State.setUop_w (x : Option (UopWord × Byte)) : (s.setUop x).w = s.w := (rfl)
@[simp] theorem State.setUop_blk (x : Option (UopWord × Byte)) : (s.setUop x).blk = s.blk := (rfl)
@[simp] theorem State.setUop_len (x : Option (UopWord × Byte)) : (s.setUop x).len = s.len := (rfl)
@[simp] theorem State.setUop_phase (x : Option (UopWord × Byte)) : (s.setUop x).phase = s.phase := (rfl)
@[simp] theorem State.setUop_uop (x : Option (UopWord × Byte)) : (s.setUop x).uop = x := (rfl)
@[simp] theorem State.setUop_inbox (x : Option (UopWord × Byte)) : (s.setUop x).inbox = s.inbox := (rfl)
@[simp] theorem State.setUop_pending (x : Option (UopWord × Byte)) : (s.setUop x).pending = s.pending := (rfl)
@[simp] theorem State.setUop_rsps (x : Option (UopWord × Byte)) : (s.setUop x).rsps = s.rsps := (rfl)
@[simp] theorem State.setUop_resets (x : Option (UopWord × Byte)) : (s.setUop x).resets = s.resets := (rfl)

@[simp] theorem State.setInbox_h (x : List HostEvent) : (s.setInbox x).h = s.h := (rfl)
@[simp] theorem State.setInbox_a (x : List HostEvent) : (s.setInbox x).a = s.a := (rfl)
@[simp] theorem State.setInbox_b (x : List HostEvent) : (s.setInbox x).b = s.b := (rfl)
@[simp] theorem State.setInbox_c (x : List HostEvent) : (s.setInbox x).c = s.c := (rfl)
@[simp] theorem State.setInbox_d (x : List HostEvent) : (s.setInbox x).d = s.d := (rfl)
@[simp] theorem State.setInbox_e (x : List HostEvent) : (s.setInbox x).e = s.e := (rfl)
@[simp] theorem State.setInbox_w (x : List HostEvent) : (s.setInbox x).w = s.w := (rfl)
@[simp] theorem State.setInbox_blk (x : List HostEvent) : (s.setInbox x).blk = s.blk := (rfl)
@[simp] theorem State.setInbox_len (x : List HostEvent) : (s.setInbox x).len = s.len := (rfl)
@[simp] theorem State.setInbox_phase (x : List HostEvent) : (s.setInbox x).phase = s.phase := (rfl)
@[simp] theorem State.setInbox_uop (x : List HostEvent) : (s.setInbox x).uop = s.uop := (rfl)
@[simp] theorem State.setInbox_inbox (x : List HostEvent) : (s.setInbox x).inbox = x := (rfl)
@[simp] theorem State.setInbox_pending (x : List HostEvent) : (s.setInbox x).pending = s.pending := (rfl)
@[simp] theorem State.setInbox_rsps (x : List HostEvent) : (s.setInbox x).rsps = s.rsps := (rfl)
@[simp] theorem State.setInbox_resets (x : List HostEvent) : (s.setInbox x).resets = s.resets := (rfl)

@[simp] theorem State.giveRsp_h (x : Response) : (s.giveRsp x).h = s.h := (rfl)
@[simp] theorem State.giveRsp_a (x : Response) : (s.giveRsp x).a = s.a := (rfl)
@[simp] theorem State.giveRsp_b (x : Response) : (s.giveRsp x).b = s.b := (rfl)
@[simp] theorem State.giveRsp_c (x : Response) : (s.giveRsp x).c = s.c := (rfl)
@[simp] theorem State.giveRsp_d (x : Response) : (s.giveRsp x).d = s.d := (rfl)
@[simp] theorem State.giveRsp_e (x : Response) : (s.giveRsp x).e = s.e := (rfl)
@[simp] theorem State.giveRsp_w (x : Response) : (s.giveRsp x).w = s.w := (rfl)
@[simp] theorem State.giveRsp_blk (x : Response) : (s.giveRsp x).blk = s.blk := (rfl)
@[simp] theorem State.giveRsp_len (x : Response) : (s.giveRsp x).len = s.len := (rfl)
@[simp] theorem State.giveRsp_phase (x : Response) : (s.giveRsp x).phase = s.phase := (rfl)
@[simp] theorem State.giveRsp_uop (x : Response) : (s.giveRsp x).uop = s.uop := (rfl)
@[simp] theorem State.giveRsp_inbox (x : Response) : (s.giveRsp x).inbox = s.inbox := (rfl)
@[simp] theorem State.giveRsp_pending (x : Response) : (s.giveRsp x).pending = some x := (rfl)
@[simp] theorem State.giveRsp_rsps (x : Response) : (s.giveRsp x).rsps = s.rsps := (rfl)
@[simp] theorem State.giveRsp_resets (x : Response) : (s.giveRsp x).resets = s.resets := (rfl)

@[simp] theorem State.takeRsp_h : s.takeRsp.h = s.h := (rfl)
@[simp] theorem State.takeRsp_a : s.takeRsp.a = s.a := (rfl)
@[simp] theorem State.takeRsp_b : s.takeRsp.b = s.b := (rfl)
@[simp] theorem State.takeRsp_c : s.takeRsp.c = s.c := (rfl)
@[simp] theorem State.takeRsp_d : s.takeRsp.d = s.d := (rfl)
@[simp] theorem State.takeRsp_e : s.takeRsp.e = s.e := (rfl)
@[simp] theorem State.takeRsp_w : s.takeRsp.w = s.w := (rfl)
@[simp] theorem State.takeRsp_blk : s.takeRsp.blk = s.blk := (rfl)
@[simp] theorem State.takeRsp_len : s.takeRsp.len = s.len := (rfl)
@[simp] theorem State.takeRsp_phase : s.takeRsp.phase = s.phase := (rfl)
@[simp] theorem State.takeRsp_uop : s.takeRsp.uop = s.uop := (rfl)
@[simp] theorem State.takeRsp_inbox : s.takeRsp.inbox = s.inbox := (rfl)
@[simp] theorem State.takeRsp_pending : s.takeRsp.pending = none := (rfl)
@[simp] theorem State.takeRsp_rsps : s.takeRsp.rsps = s.rsps ++ s.pending.toList := (rfl)
@[simp] theorem State.takeRsp_resets : s.takeRsp.resets = s.resets := (rfl)

@[simp] theorem State.dropRsp_h : s.dropRsp.h = s.h := (rfl)
@[simp] theorem State.dropRsp_a : s.dropRsp.a = s.a := (rfl)
@[simp] theorem State.dropRsp_b : s.dropRsp.b = s.b := (rfl)
@[simp] theorem State.dropRsp_c : s.dropRsp.c = s.c := (rfl)
@[simp] theorem State.dropRsp_d : s.dropRsp.d = s.d := (rfl)
@[simp] theorem State.dropRsp_e : s.dropRsp.e = s.e := (rfl)
@[simp] theorem State.dropRsp_w : s.dropRsp.w = s.w := (rfl)
@[simp] theorem State.dropRsp_blk : s.dropRsp.blk = s.blk := (rfl)
@[simp] theorem State.dropRsp_len : s.dropRsp.len = s.len := (rfl)
@[simp] theorem State.dropRsp_phase : s.dropRsp.phase = s.phase := (rfl)
@[simp] theorem State.dropRsp_uop : s.dropRsp.uop = s.uop := (rfl)
@[simp] theorem State.dropRsp_inbox : s.dropRsp.inbox = s.inbox := (rfl)
@[simp] theorem State.dropRsp_pending : s.dropRsp.pending = none := (rfl)
@[simp] theorem State.dropRsp_rsps : s.dropRsp.rsps = s.rsps := (rfl)
@[simp] theorem State.dropRsp_resets : s.dropRsp.resets = s.resets := (rfl)

@[simp] theorem State.setResets_h (x : Nat) : (s.setResets x).h = s.h := (rfl)
@[simp] theorem State.setResets_a (x : Nat) : (s.setResets x).a = s.a := (rfl)
@[simp] theorem State.setResets_b (x : Nat) : (s.setResets x).b = s.b := (rfl)
@[simp] theorem State.setResets_c (x : Nat) : (s.setResets x).c = s.c := (rfl)
@[simp] theorem State.setResets_d (x : Nat) : (s.setResets x).d = s.d := (rfl)
@[simp] theorem State.setResets_e (x : Nat) : (s.setResets x).e = s.e := (rfl)
@[simp] theorem State.setResets_w (x : Nat) : (s.setResets x).w = s.w := (rfl)
@[simp] theorem State.setResets_blk (x : Nat) : (s.setResets x).blk = s.blk := (rfl)
@[simp] theorem State.setResets_len (x : Nat) : (s.setResets x).len = s.len := (rfl)
@[simp] theorem State.setResets_phase (x : Nat) : (s.setResets x).phase = s.phase := (rfl)
@[simp] theorem State.setResets_uop (x : Nat) : (s.setResets x).uop = s.uop := (rfl)
@[simp] theorem State.setResets_inbox (x : Nat) : (s.setResets x).inbox = s.inbox := (rfl)
@[simp] theorem State.setResets_pending (x : Nat) : (s.setResets x).pending = s.pending := (rfl)
@[simp] theorem State.setResets_rsps (x : Nat) : (s.setResets x).rsps = s.rsps := (rfl)
@[simp] theorem State.setResets_resets (x : Nat) : (s.setResets x).resets = x := (rfl)

/-- Two states whose fields are equal are equal. -/
theorem State.ext_fields {s t : State} (hh : s.h = t.h) (ha : s.a = t.a) (hb : s.b = t.b) (hc : s.c = t.c) (hd : s.d = t.d)
    (he : s.e = t.e) (hw : s.w = t.w) (hblk : s.blk = t.blk) (hlen : s.len = t.len) (hphase : s.phase = t.phase)
    (huop : s.uop = t.uop) (hin : s.inbox = t.inbox) (hpe : s.pending = t.pending) (hr : s.rsps = t.rsps) (hn : s.resets = t.resets) : s = t := by
  cases s; cases t; simp_all

/-- A second block overwrites what the first left in `W`, `A` to `E` and `H`. -/
theorem State.second_block (w w' : Vector Word 80) (va vb vc vd ve va' vb' vc' vd' ve' : Word) (h h' : Vector Word 5) (m m' : Mem) :
    (((((((s.setBlk m).setW w).setVars va vb vc vd ve).setH h).setBlk m').setW w').setVars va' vb' vc' vd' ve').setH h' =
      (((s.setBlk m').setW w').setVars va' vb' vc' vd' ve').setH h' := (rfl)

/-- The schedule and the working variables are written independently. -/
theorem State.setVars_setW (w : Vector Word 80) (va vb vc vd ve : Word) :
    (s.setVars va vb vc vd ve).setW w = (s.setW w).setVars va vb vc vd ve := (rfl)

end Sys2Proof.Machine
end

