-- ==== Sys2Proof/Laws/Units.lean ====
section
/-! SUPPORT. What a micro-operation, and a sequence of them, can do and cannot do: each touches only the registers of its
unit (10_state.md R37), none touches `LEN`, `PHASE` or a channel. -/

namespace Sys2Proof.Machine

/-- What every micro-operation leaves alone. -/
theorem perform_frame (u : MicroOp) (s : State) :
    (u.perform s).len = s.len ∧ (u.perform s).phase = s.phase ∧ (u.perform s).uop = s.uop ∧
    (u.perform s).inbox = s.inbox ∧ (u.perform s).pending = s.pending ∧ (u.perform s).rsps = s.rsps ∧ (u.perform s).resets = s.resets := by
  cases u <;> exact ⟨rfl, rfl, rfl, rfl, rfl, rfl, rfl⟩

/-! What each micro-operation of PAD leaves in `BLK`. -/

theorem perform_putb_blk (p : Fin 64) (b : Byte) (s : State) : ((MicroOp.putb p b).perform s).blk =
    writeByte s.blk p.val b := (rfl)
theorem perform_mark_blk (p : Fin 64) (s : State) : ((MicroOp.mark p).perform s).blk =
    writeByte s.blk p.val 0x80 := (rfl)
theorem perform_zero_blk (p : Fin 64) (s : State) : ((MicroOp.zero p).perform s).blk = writeByte s.blk p.val 0 := (rfl)
theorem perform_len_blk (s : State) : (MicroOp.len.perform s).blk = writeDword s.blk 56 s.len := (rfl)

/-- Every micro-operation keeps `BLK` canonical. -/
theorem perform_wf (u : MicroOp) {s : State} (h : memWf s.blk = true) : memWf (u.perform s).blk = true := by
  cases u with
  | putb p b => exact writeByte_wf h p.isLt b
  | mark p => exact writeByte_wf h p.isLt _
  | zero p => exact writeByte_wf h p.isLt _
  | len => exact writeDword_wf h (by decide) _
  | load i => exact h
  | exp i => exact h
  | initv => exact h
  | rnd t => exact h
  | fold => exact h

@[simp] theorem issue_nil (s : State) : issue [] s = s := (rfl)

@[simp] theorem issue_cons (u : MicroOp) (us : List MicroOp) (s : State) : issue (u :: us) s =
    issue us (u.perform s) := (rfl)

theorem issue_append (us vs : List MicroOp) (s : State) : issue (us ++ vs) s = issue vs (issue us s) := by
  simp [issue, List.foldl_append]

/-- A fact every micro-operation keeps, every sequence keeps. -/
theorem issue_keeps {P : State → Prop} (us : List MicroOp) (hstep : ∀ u ∈ us, ∀ s,
    P s → P (u.perform s)) {s : State} (h : P s) :
    P (issue us s) := by
  induction us generalizing s with
  | nil => exact h
  | cons u us ih => exact ih (fun v hv => hstep v (by simp [hv])) (hstep u (by simp) s h)

/-- What every sequence of micro-operations leaves alone. -/
theorem issue_frame (us : List MicroOp) (s : State) :
    (issue us s).len = s.len ∧ (issue us s).phase = s.phase ∧ (issue us s).uop = s.uop ∧
    (issue us s).inbox = s.inbox ∧ (issue us s).pending = s.pending ∧ (issue us s).rsps = s.rsps ∧
    (issue us s).resets = s.resets :=
  issue_keeps (P := fun t => t.len = s.len ∧ t.phase = s.phase ∧ t.uop = s.uop ∧ t.inbox = s.inbox ∧
      t.pending = s.pending ∧ t.rsps = s.rsps ∧ t.resets = s.resets) us
    (fun u _ t ⟨h1, h2, h3, h4, h5, h6, h7⟩ => by
      obtain ⟨k1, k2, k3, k4, k5, k6, k7⟩ := perform_frame u t
      exact ⟨k1.trans h1, k2.trans h2, k3.trans h3, k4.trans h4, k5.trans h5, k6.trans h6,
        k7.trans h7⟩)
    ⟨rfl, rfl, rfl, rfl, rfl, rfl, rfl⟩

@[simp] theorem issue_len (us : List MicroOp) (s : State) : (issue us s).len = s.len := (issue_frame us s).1
@[simp] theorem issue_phase (us : List MicroOp) (s : State) : (issue us s).phase = s.phase := (issue_frame us s).2.1
@[simp] theorem issue_uop (us : List MicroOp) (s : State) : (issue us s).uop = s.uop := (issue_frame us s).2.2.1
@[simp] theorem issue_inbox (us : List MicroOp) (s : State) : (issue us s).inbox = s.inbox := (issue_frame us s).2.2.2.1
@[simp] theorem issue_pending (us : List MicroOp) (s : State) : (issue us s).pending = s.pending :=
  (issue_frame us s).2.2.2.2.1
@[simp] theorem issue_rsps (us : List MicroOp) (s : State) : (issue us s).rsps = s.rsps := (issue_frame us s).2.2.2.2.2.1
@[simp] theorem issue_resets (us : List MicroOp) (s : State) : (issue us s).resets = s.resets :=
  (issue_frame us s).2.2.2.2.2.2

/-- Every sequence of micro-operations keeps `BLK` canonical. -/
theorem issue_wf (us : List MicroOp) {s : State} (h : memWf s.blk = true) : memWf (issue us s).blk = true :=
  issue_keeps (P := fun t => memWf t.blk = true) us (fun u _ _ ht => perform_wf u ht) h

/-- The micro-operations of WEX and CMP do not write `BLK`. -/
def MicroOp.keepsBlk : MicroOp → Bool
  | .putb _ _ | .mark _ | .zero _ | .len => false
  | .load _ | .exp _ | .initv | .rnd _ | .fold => true

theorem issue_keepsBlk (us : List MicroOp) (hus : us.all MicroOp.keepsBlk = true) (s : State) : (issue us s).blk =
    s.blk := by
  refine issue_keeps (P := fun t => t.blk = s.blk) us (fun u hu t ht => ?_) rfl
  have := List.all_eq_true.1 hus u hu
  cases u <;> first | exact ht | simp [MicroOp.keepsBlk] at this

/-- The micro-operations of PAD write `BLK` alone. -/
theorem perform_pad (u : MicroOp) (hu : u.keepsBlk = false) (s : State) : u.perform s = s.setBlk (u.perform s).blk := by
  cases u <;> first | rfl | simp [MicroOp.keepsBlk] at hu

/-- A sequence of PAD micro-operations writes `BLK` alone. -/
theorem issue_pad (us : List MicroOp) (hus : ∀ u ∈ us, u.keepsBlk = false) (s : State) : issue us s =
    s.setBlk (issue us s).blk := by
  induction us generalizing s with
  | nil => rfl
  | cons u us ih =>
    have h1 := perform_pad u (hus u (by simp)) s
    have h2 := ih (fun v hv => hus v (by simp [hv])) (u.perform s)
    rw [issue_cons, h2, h1]
    rfl

theorem mem_zeroOps {lo hi : Nat} {u : MicroOp} : u ∈ zeroOps lo hi ↔ ∃ p : Fin 64, (lo ≤ p.val ∧ p.val ≤ hi) ∧ u =
    .zero p := by
  simp only [zeroOps, List.mem_map, List.mem_filter, List.mem_finRange, true_and, Bool.and_eq_true, decide_eq_true_eq]
  exact exists_congr fun p => and_congr_right fun _ => eq_comm

/-- `PAD.ZERO lo` to `PAD.ZERO hi` writes zeros there and nothing else. -/
theorem readByte_zeroOps (lo hi : Nat) {s : State} (h : memWf s.blk = true) (x : Nat) :
    readByte (issue (zeroOps lo hi) s).blk x = if lo ≤ x ∧ x ≤ hi ∧ x < 64 then 0 else readByte s.blk x := by
  have key : ∀ (ps : List (Fin 64)) {s : State}, memWf s.blk = true →
      readByte (issue (ps.map MicroOp.zero) s).blk x = if ∃ p ∈ ps, p.val = x then 0 else readByte s.blk x := by
    intro ps
    induction ps with
    | nil => intro s _; simp
    | cons p ps ih =>
      intro s hs
      rw [List.map_cons, issue_cons, ih (perform_wf _ hs)]
      have hr : readByte ((MicroOp.zero p).perform s).blk x = if x = p.val then 0 else readByte s.blk x :=
        readByte_writeByte hs p.val x 0
      rw [hr]
      by_cases h1 : ∃ q ∈ ps, q.val = x
      · rw [if_pos h1, if_pos]
        obtain ⟨q, hq, hqx⟩ := h1
        exact ⟨q, by simp [hq], hqx⟩
      · rw [if_neg h1]
        by_cases h2 : x = p.val
        · rw [if_pos h2, if_pos ⟨p, by simp, h2.symm⟩]
        · rw [if_neg h2, if_neg]
          rintro ⟨q, hq, hqx⟩
          rcases List.mem_cons.1 hq with rfl | hq
          · exact h2 hqx.symm
          · exact h1 ⟨q, hq, hqx⟩
  rw [zeroOps, key _ h]
  congr 1
  rw [eq_iff_iff]
  constructor
  · rintro ⟨p, hp, rfl⟩
    have := p.isLt
    simp at hp
    exact ⟨hp.1, hp.2, this⟩
  · rintro ⟨h1, h2, h3⟩
    exact ⟨⟨x, h3⟩, by simp [h1, h2], rfl⟩

end Sys2Proof.Machine
end

