-- ==== Sys2Proof/Laws/Commands.lean ====
section
/-! SUPPORT. What a command and a step can do, said once: each command answers either a rejection, which changes nothing
but the response channel, or an acceptance with the effect of its rule; and all that a step can be. -/

namespace Sys2Proof.Machine

/-! ## The arithmetic facts used everywhere -/

theorem be32_append (b0 b1 b2 b3 : Byte) : be32 b0 b1 b2 b3 = b0 ++ b1 ++ b2 ++ b3 := (rfl)

theorem add32_eq (x y : Word) : add32 x y = x + y := (rfl)

theorem pos_val (n : Len) : (pos n).val = n.toNat / 8 % 64 := by
  simp [pos, BitVec.extractLsb'_toNat, Nat.shiftRight_eq_div_pow]

theorem noRoomForLength_iff (p : Fin 64) : noRoomForLength p = true ↔ 56 ≤ p.val := by
  simp [noRoomForLength]

theorem blockFull_iff (p : Fin 64) : blockFull p = true ↔ p.val = 63 := by simp [blockFull]

theorem lenAtMax_iff (n : Len) : lenAtMax n = true ↔ n = 0xFFFFFFFFFFFFFFF8 := by simp [lenAtMax, lenMax]

/-! ## Acceptance and rejection -/

theorem reject_eq (code : Code) (s : State) : reject code s = s.giveRsp ⟨code, 0⟩ := (rfl)

theorem respond_eq (code : Code) (data : Word) (s : State) : respond code data s = s.giveRsp ⟨code, data⟩ := (rfl)

theorem execInit_cases (s : State) :
    (s.phase = .absorb ∧ execInit s = .next (s.giveRsp ⟨.badPhase, 0⟩)) ∨
    (s.phase ≠ .absorb ∧ execInit s = .next ((((s.setH iv).setLen 0).setPhase .absorb).giveRsp ⟨.ok, 0⟩)) := by
  unfold execInit
  split
  · exact .inl ⟨‹_›, rfl⟩
  · exact .inr ⟨‹_›, rfl⟩

theorem execPush_cases (b : Byte) (s : State) :
    (s.phase ≠ .absorb ∧ execPush b s = .next (s.giveRsp ⟨.badPhase, 0⟩)) ∨
    (s.phase = .absorb ∧ s.len = 0xFFFFFFFFFFFFFFF8 ∧ execPush b s = .next (s.giveRsp ⟨.lenOverflow, 0⟩)) ∨
    (s.phase = .absorb ∧ s.len ≠ 0xFFFFFFFFFFFFFFF8 ∧ execPush b s = .next ((pushByte b s).giveRsp ⟨.ok, 0⟩)) := by
  unfold execPush
  split
  · exact .inl ⟨‹_›, rfl⟩
  · rename_i hp
    rw [ne_eq, not_not] at hp
    split
    · exact .inr (.inl ⟨hp, (lenAtMax_iff _).1 ‹_›, rfl⟩)
    · exact .inr (.inr ⟨hp, fun h => ‹¬_› ((lenAtMax_iff _).2 h), rfl⟩)

theorem execFinal_cases (s : State) :
    (s.phase ≠ .absorb ∧ execFinal s = .next (s.giveRsp ⟨.badPhase, 0⟩)) ∨
    (s.phase = .absorb ∧ execFinal s = .next ((finishMessage s).giveRsp ⟨.ok, 0⟩)) := by
  unfold execFinal
  split
  · exact .inl ⟨‹_›, rfl⟩
  · exact .inr ⟨not_not.1 ‹_›, rfl⟩

theorem execRead_cases (i : Fin 5) (s : State) :
    (s.phase ≠ .done ∧ execRead i s = .next (s.giveRsp ⟨.badPhase, 0⟩)) ∨
    (s.phase = .done ∧ execRead i s = .next (s.giveRsp ⟨.ok, s.h[i.val]⟩)) := by
  unfold execRead
  split
  · exact .inl ⟨‹_›, rfl⟩
  · exact .inr ⟨not_not.1 ‹_›, rfl⟩

theorem execStat_eq (s : State) : execStat s = .next (s.giveRsp ⟨.ok, statWord s.phase⟩) := (rfl)

/-! ## What an accepted `PUSH` and an accepted `FINAL` leave alone -/

@[simp] theorem pushByte_len (b : Byte) (s : State) : (pushByte b s).len = s.len + 8 := by simp [pushByte]
@[simp] theorem pushByte_phase (b : Byte) (s : State) : (pushByte b s).phase = s.phase := by simp [pushByte]
@[simp] theorem pushByte_uop (b : Byte) (s : State) : (pushByte b s).uop = s.uop := by simp [pushByte]
@[simp] theorem pushByte_inbox (b : Byte) (s : State) : (pushByte b s).inbox = s.inbox := by simp [pushByte]
@[simp] theorem pushByte_pending (b : Byte) (s : State) : (pushByte b s).pending = s.pending := by simp [pushByte]
@[simp] theorem pushByte_rsps (b : Byte) (s : State) : (pushByte b s).rsps = s.rsps := by simp [pushByte]
@[simp] theorem pushByte_resets (b : Byte) (s : State) : (pushByte b s).resets = s.resets := by simp [pushByte]

theorem pushByte_wf (b : Byte) {s : State} (h : memWf s.blk = true) : memWf (pushByte b s).blk = true :=
  issue_wf _ (show memWf ((issue (pushStoreOps (pos s.len) b) s).setLen _).blk = true from issue_wf _ h)

@[simp] theorem finishMessage_len (s : State) : (finishMessage s).len = s.len := by simp [finishMessage]
@[simp] theorem finishMessage_phase (s : State) : (finishMessage s).phase = .done := (rfl)
@[simp] theorem finishMessage_uop (s : State) : (finishMessage s).uop = s.uop := by simp [finishMessage]
@[simp] theorem finishMessage_inbox (s : State) : (finishMessage s).inbox = s.inbox := by simp [finishMessage]
@[simp] theorem finishMessage_pending (s : State) : (finishMessage s).pending = s.pending := by simp [finishMessage]
@[simp] theorem finishMessage_rsps (s : State) : (finishMessage s).rsps = s.rsps := by simp [finishMessage]
@[simp] theorem finishMessage_resets (s : State) : (finishMessage s).resets = s.resets := by simp [finishMessage]

theorem finishMessage_wf {s : State} (h : memWf s.blk = true) : memWf (finishMessage s).blk = true := issue_wf _ h

/-! ## The reset event -/

@[simp] theorem takeReset_phase (s : State) : (takeReset s).phase = .idle := (rfl)
@[simp] theorem takeReset_uop (s : State) : (takeReset s).uop = s.uop := (rfl)
@[simp] theorem takeReset_inbox (s : State) : (takeReset s).inbox = s.inbox := (rfl)
@[simp] theorem takeReset_pending (s : State) : (takeReset s).pending = none := (rfl)
@[simp] theorem takeReset_rsps (s : State) : (takeReset s).rsps = s.rsps := (rfl)
@[simp] theorem takeReset_resets (s : State) : (takeReset s).resets = s.resets + 1 := (rfl)

theorem takeReset_blk (s : State) : (takeReset s).blk = freeBlk s := by simp only [takeReset, State.setResets_blk,
    State.dropRsp_blk, State.setPhase_blk, State.setLen_blk, State.setBlk_blk]

theorem takeReset_wf (s : State) : memWf (takeReset s).blk = true := by rw [takeReset_blk]; exact freeBlk_wf s

/-! ## A step -/

/-! Commands alone make the block wait; behind them it finds what the host does about the response. -/

theorem standing_commands_wait (ws : List CmdWord) : standing (ws.map .command) = .wait := by
  induction ws with
  | nil => rfl
  | cons w ws ih => simp [standing, ih]

theorem standing_commands_take (ws : List CmdWord) (rest : List HostEvent) :
    standing (ws.map .command ++ .take :: rest) = .taken (ws.map .command ++ rest) := by
  induction ws with
  | nil => rfl
  | cons w ws ih => simp [standing, ih]

theorem standing_commands_reset (ws : List CmdWord) (rest : List HostEvent) :
    standing (ws.map .command ++ .reset :: rest) = .reset rest := by
  induction ws with
  | nil => rfl
  | cons w ws ih => simp [standing, ih]

/-- The three things a step can be while a response stands on the channel; none of them takes a command. -/
theorem step_standing {s : State} {r : Response} (hu : s.uop = none) (hp : s.pending = some r) :
    (standing s.inbox = .wait ∧ step s = .next s) ∨
    (∃ l, standing s.inbox = .taken l ∧ step s = .next (s.takeRsp.setInbox l)) ∨
    (∃ l, standing s.inbox = .reset l ∧ step s = .next (takeReset (s.setInbox l))) := by
  cases hs : standing s.inbox with
  | wait => exact .inl ⟨rfl, by simp [step, hu, hp, hs]⟩
  | taken l => exact .inr (.inl ⟨l, rfl, by simp [step, hu, hp, hs]⟩)
  | reset l => exact .inr (.inr ⟨l, rfl, by simp [step, hu, hp, hs]⟩)

/-- What a step can be: a micro-operation on the lines, which runs or is refused; with a response on the channel, waiting, the
host taking it, or a reset; with the channel empty, waiting, a response taken that is not there, a reset, a legal command, or an
illegal word. -/
theorem step_cases (s : State) :
    (∃ w data i, s.uop = some (w, data) ∧ decode (.uop w data) = .ok i ∧ step s = exec i (s.setUop none)) ∨
    (∃ w data e, s.uop = some (w, data) ∧ decode (.uop w data) = .error e ∧ step s = .refused .reservedUop) ∨
    (∃ r, s.uop = none ∧ s.pending = some r ∧ standing s.inbox = .wait ∧ step s = .next s) ∨
    (∃ r l, s.uop = none ∧ s.pending = some r ∧ standing s.inbox = .taken l ∧ step s = .next (s.takeRsp.setInbox l)) ∨
    (∃ r l, s.uop = none ∧ s.pending = some r ∧ standing s.inbox = .reset l ∧ step s = .next (takeReset (s.setInbox l))) ∨
    (s.uop = none ∧ s.pending = none ∧ s.inbox = [] ∧ step s = .next s) ∨
    (∃ rest, s.uop = none ∧ s.pending = none ∧ s.inbox = .take :: rest ∧ step s = .next (s.setInbox rest)) ∨
    (∃ rest, s.uop = none ∧ s.pending = none ∧ s.inbox = .reset :: rest ∧ step s = .next (takeReset (s.setInbox rest))) ∨
    (∃ w rest i, s.uop = none ∧ s.pending = none ∧ s.inbox = .command w :: rest ∧ decode (.cmd w) = .ok i ∧
      step s = exec i (s.setInbox rest)) ∨
    (∃ w rest e, s.uop = none ∧ s.pending = none ∧ s.inbox = .command w :: rest ∧ decode (.cmd w) = .error e ∧
      step s = .next ((s.setInbox rest).giveRsp ⟨.illegalCmd, 0⟩)) := by
  cases hu : s.uop with
  | some wd =>
    obtain ⟨w, data⟩ := wd
    cases hd : decode (.uop w data) with
    | ok i => exact .inl ⟨w, data, i, rfl, hd, by simp [step, hu, hd]⟩
    | error e => exact .inr (.inl ⟨w, data, e, rfl, hd, by simp [step, hu, hd]⟩)
  | none =>
    refine .inr (.inr ?_)
    cases hp : s.pending with
    | some r =>
      rcases step_standing hu hp with ⟨h, h'⟩ | ⟨l, h, h'⟩ | ⟨l, h, h'⟩
      · exact .inl ⟨r, rfl, rfl, h, h'⟩
      · exact .inr (.inl ⟨r, l, rfl, rfl, h, h'⟩)
      · exact .inr (.inr (.inl ⟨r, l, rfl, rfl, h, h'⟩))
    | none =>
      refine .inr (.inr (.inr ?_))
      cases hi : s.inbox with
      | nil => exact .inl ⟨rfl, rfl, rfl, by simp [step, hu, hp, hi]⟩
      | cons ev rest =>
        cases ev with
        | take => exact .inr (.inl ⟨rest, rfl, rfl, rfl, by simp [step, hu, hp, hi]⟩)
        | reset => exact .inr (.inr (.inl ⟨rest, rfl, rfl, rfl, by simp [step, hu, hp, hi]⟩))
        | command w =>
          cases hd : decode (.cmd w) with
          | ok i => exact .inr (.inr (.inr (.inl ⟨w, rest, i, rfl, rfl, rfl, hd, by simp [step, hu, hp, hi, hd]⟩)))
          | error e =>
            exact .inr (.inr (.inr (.inr ⟨w, rest, e, rfl, rfl, rfl, hd, by
              simp [step, hu, hp, hi, hd, rejectIllegal, reject, respond]⟩)))

/-- The five commands a legal word can be. -/
theorem command_of_decode {w : CmdWord} {i : Instr} (hd : decode (.cmd w) = .ok i) :
    (i = .init ∧ cmdOp w = 1 ∧ w = 0x0100) ∨ (∃ b, i = .push b ∧ cmdOp w = 2) ∨ (i = .final ∧ cmdOp w = 3) ∨
    (∃ k, i = .read k ∧ cmdOp w = 4 ∧ cmdX w = k.val) ∨ (i = .stat ∧ cmdOp w = 5 ∧ w = 0x0500) := by
  rcases decodeCmd_cases w with ⟨a, b, c⟩ | ⟨a, c⟩ | ⟨a, b, c⟩ | ⟨e, a, c⟩ | ⟨a, b, c⟩ | ⟨a,
      c⟩ <;> rw [c] at hd <;> cases hd
  · exact .inl ⟨rfl, a, by apply BitVec.eq_of_toNat_eq; simp [cmdOp, cmdX] at a b ⊢; omega⟩
  · exact .inr (.inl ⟨_, rfl, a⟩)
  · exact .inr (.inr (.inl ⟨rfl, a⟩))
  · exact .inr (.inr (.inr (.inl ⟨_, rfl, a, by simp⟩)))
  · exact .inr (.inr (.inr (.inr ⟨rfl, a, by apply BitVec.eq_of_toNat_eq; simp [cmdOp, cmdX] at a b ⊢; omega⟩)))

/-- The words that decode to nothing are the illegal ones. -/
theorem illegalWord_iff (w : CmdWord) : illegalWord w ↔ decode (.cmd w) = .error .illegalCmd := by
  unfold illegalWord
  rw [← cmdOp_eq, ← cmdX_eq]
  have hx : cmdX w < 256 := Nat.mod_lt _ (by decide)
  rcases decodeCmd_cases w with ⟨a, b, c⟩ | ⟨a, c⟩ | ⟨a, b, c⟩ | ⟨e, a, c⟩ | ⟨a, b, c⟩ | ⟨a, c⟩ <;>
    simp [c] <;> omega

/-- The two things a step can do with a command word, once the last response has been taken. -/
theorem step_command (s : State) (w : CmdWord) (rest : List HostEvent) (hu : s.uop = none) (hp : s.pending = none)
    (hi : s.inbox = .command w :: rest) :
    (illegalWord w ∧ step s = .next ((s.setInbox rest).giveRsp ⟨.illegalCmd, 0⟩)) ∨
    ∃ i, ¬illegalWord w ∧ decode (.cmd w) = .ok i ∧ step s = exec i (s.setInbox rest) := by
  cases hd : decode (.cmd w) with
  | error e =>
    have he : e = .illegalCmd := by
      simp only [decode] at hd
      split at hd <;> cases hd; rfl
    subst he
    exact .inl ⟨(illegalWord_iff w).2 hd, by simp [step, hu, hp, hi, hd, rejectIllegal, reject, respond]⟩
  | ok i => exact .inr ⟨i, by rw [illegalWord_iff, hd]; simp, rfl, by simp [step, hu, hp, hi, hd]⟩

/-- A reset is taken whether or not a response stands on the channel. -/
theorem step_reset (s : State) (rest : List HostEvent) (hu : s.uop = none) (hi : s.inbox = .reset :: rest) :
    step s = .next (takeReset (s.setInbox rest)) := by
  cases hp : s.pending <;> simp [step, hu, hp, hi, standing]

/-- The host takes the response, if one stands on the channel. -/
theorem step_take (s : State) (rest : List HostEvent) (hu : s.uop = none) (hi : s.inbox = .take :: rest) :
    step s = .next (s.takeRsp.setInbox rest) := by
  cases hp : s.pending with
  | some r => simp [step, hu, hp, hi, standing]
  | none =>
    have h : s.takeRsp = s := by cases s; simp_all [State.takeRsp]
    simp [step, hu, hp, hi, h]

/-- All that `exec` can do with a command: it goes on, with one response; a command the phase does not admit is rejected; an
admitted one is accepted, or is a `PUSH` at the longest message. -/
theorem exec_command {w : CmdWord} {i : Instr} (hd : decode (.cmd w) = .ok i) (s : State) :
    ∃ t r, exec i s = .next (t.giveRsp r) ∧ t.rsps = s.rsps ∧ t.inbox = s.inbox ∧ t.uop = s.uop ∧
      t.phase = phaseAfter s.phase i ∧
      (admits s.phase i = false → r = ⟨.badPhase, 0⟩ ∧ t = s) ∧
      (admits s.phase i = true →
        (r.code = .ok ∧ (cmdOp w = 2 → s.len ≠ 0xFFFFFFFFFFFFFFF8) ∧ (cmdOp w ≤ 3 → r.data = 0) ∧
          (∀ k, i = .read k → r.data = s.h[k.val]) ∧ (i = .stat → r.data = statWord s.phase)) ∨
        (r = ⟨.lenOverflow, 0⟩ ∧ t = s ∧ (∃ b, i = .push b) ∧ s.len = 0xFFFFFFFFFFFFFFF8)) := by
  rcases command_of_decode hd with ⟨rfl, h, -⟩ | ⟨b, rfl, h⟩ | ⟨rfl, h⟩ | ⟨k, rfl, h, h'⟩ | ⟨rfl, h, -⟩
  · rcases execInit_cases s with h1 | h1
    · exact ⟨_, _, h1.2, rfl, rfl, rfl, by rw [h1.1]; rfl, fun _ => ⟨rfl, rfl⟩, by rw [h1.1]; intro; contradiction⟩
    · refine ⟨_, _, h1.2, by simp, by simp, by simp, ?_, ?_, ?_⟩
      · revert h1; cases s.phase <;> simp [phaseAfter]
      · revert h1; cases s.phase <;> simp [admits]
      · intro; exact .inl ⟨rfl, by omega, fun _ => rfl, by simp, by simp⟩
  · rcases execPush_cases b s with h1 | h1 | h1
    · refine ⟨_, _, h1.2, by simp, by simp, by simp, ?_, fun _ => ⟨rfl, rfl⟩, ?_⟩
      · revert h1; cases s.phase <;> simp [phaseAfter]
      · revert h1; cases s.phase <;> simp [admits]
    · refine ⟨_, _, h1.2.2, by simp, by simp, by simp, ?_, ?_, ?_⟩
      · rw [h1.1]; rfl
      · rw [h1.1]; simp [admits]
      · intro; exact .inr ⟨rfl, rfl, ⟨_, rfl⟩, h1.2.1⟩
    · refine ⟨_, _, h1.2.2, by simp, by simp, by simp, ?_, ?_, ?_⟩
      · simp [h1.1, phaseAfter]
      · rw [h1.1]; simp [admits]
      · intro; exact .inl ⟨rfl, fun _ => h1.2.1, fun _ => rfl, by simp, by simp⟩
  · rcases execFinal_cases s with h1 | h1
    · refine ⟨_, _, h1.2, by simp, by simp, by simp, ?_, fun _ => ⟨rfl, rfl⟩, ?_⟩
      · revert h1; cases s.phase <;> simp [phaseAfter]
      · revert h1; cases s.phase <;> simp [admits]
    · refine ⟨_, _, h1.2, by simp, by simp, by simp, ?_, ?_, ?_⟩
      · simp [h1.1, phaseAfter]
      · rw [h1.1]; simp [admits]
      · intro; exact .inl ⟨rfl, by omega, fun _ => rfl, by simp, by simp⟩
  · rcases execRead_cases k s with h1 | h1
    · refine ⟨_, _, h1.2, by simp, by simp, by simp, ?_, fun _ => ⟨rfl, rfl⟩, ?_⟩
      · revert h1; cases s.phase <;> simp [phaseAfter]
      · revert h1; cases s.phase <;> simp [admits]
    · refine ⟨_, _, h1.2, by simp, by simp, by simp, ?_, ?_, ?_⟩
      · simp [h1.1, phaseAfter]
      · rw [h1.1]; simp [admits]
      · intro; exact .inl ⟨rfl, by omega, by omega, by intro k' e; cases e; rfl, by simp⟩
  · refine ⟨_, _, execStat_eq s, by simp, by simp, by simp, ?_, ?_, ?_⟩
    · cases s.phase <;> rfl
    · cases s.phase <;> simp [admits]
    · intro; exact .inl ⟨rfl, by omega, by omega, by simp, fun _ => rfl⟩

theorem run_succ (n : Nat) {s t : State} (h : step s = .next t) : run (n + 1) s = run n t := by simp [run, h]

/-- Steps one after another are a longer run. -/
theorem run_add {n k : Nat} {s t : State} (h : run n s = .next t) : run (n + k) s = run k t := by
  induction n generalizing s with
  | zero =>
    have hst : s = t := by simpa [run] using h
    rw [hst, Nat.zero_add]
  | succ n ih =>
    rw [Nat.succ_add]
    cases hs : step s with
    | next u => rw [run_succ _ hs] at h ⊢; exact ih h
    | fault r => simp [run, hs] at h
    | refused r => simp [run, hs] at h

end Sys2Proof.Machine
end

