-- ==== Sys2Proof/Laws/PerInstr.lean ====
section
/-! SUPPORT. One family of statements about every operation as syntax: the word of a well-formed operation matches the row of
spec/opcode_table.json it is named by, mask and match as that file gives them (30_encoding.md R74). -/

namespace Sys2Proof.Laws

/-- Mask and match of the row of spec/opcode_table.json. -/
def RowMatch.row : Instr → Nat × Nat
  | .init => (0xFFFF, 0x0100)
  | .push _ => (0xFF00, 0x0200)
  | .final => (0xFFFF, 0x0300)
  | .read _ => (0xFFF8, 0x0400)
  | .stat => (0xFFFF, 0x0500)
  | .padPutb _ _ => (0x7C0, 0x000)
  | .padMark _ => (0x7C0, 0x080)
  | .padZero _ => (0x7C0, 0x100)
  | .padLen => (0x7FF, 0x180)
  | .wexLoad _ => (0x7F0, 0x200)
  | .wexExp _ => (0x780, 0x280)
  | .cmpInitv => (0x7FF, 0x400)
  | .cmpRnd _ => (0x780, 0x480)
  | .cmpFold => (0x7FF, 0x500)

/-- The number of a word, whichever its channel. -/
def RowMatch.number : OpWord → Nat
  | .cmd w => w.toNat
  | .uop w _ => w.toNat

/-- The word of the operation, if it has one, matches its row. -/
def RowMatch.Statement (i : Instr) : Prop :=
  i.WellFormed → RowMatch.number (encode i) &&& (RowMatch.row i).1 = (RowMatch.row i).2

theorem RowMatch.init : RowMatch.Statement .init := fun _ => by decide
theorem RowMatch.push (b : Byte) : RowMatch.Statement (.push b) := fun _ => by revert b; decide +kernel
theorem RowMatch.final : RowMatch.Statement .final := fun _ => by decide
theorem RowMatch.read (i : Fin 5) : RowMatch.Statement (.read i) := fun _ => by revert i; decide +kernel
theorem RowMatch.stat : RowMatch.Statement .stat := fun _ => by decide
theorem RowMatch.padPutb (p : Fin 64) (b : Byte) : RowMatch.Statement (.padPutb p b) := fun _ => by
  have h : ∀ q : Fin 64, (uopWord 0 0 q.val).toNat &&& 0x7C0 = 0x000 := by decide +kernel
  exact h p
theorem RowMatch.padMark (p : Fin 64) : RowMatch.Statement (.padMark p) := fun _ => by revert p; decide +kernel
theorem RowMatch.padZero (p : Fin 64) : RowMatch.Statement (.padZero p) := fun _ => by revert p; decide +kernel
theorem RowMatch.padLen : RowMatch.Statement .padLen := fun _ => by decide
theorem RowMatch.wexLoad (i : Fin 16) : RowMatch.Statement (.wexLoad i) := fun _ => by revert i; decide +kernel
theorem RowMatch.wexExp (i : Fin 80) : RowMatch.Statement (.wexExp i) := fun _ => by revert i; decide +kernel
theorem RowMatch.cmpInitv : RowMatch.Statement .cmpInitv := fun _ => by decide
theorem RowMatch.cmpRnd (t : Fin 80) : RowMatch.Statement (.cmpRnd t) := fun _ => by revert t; decide +kernel
theorem RowMatch.cmpFold : RowMatch.Statement .cmpFold := fun _ => by decide

end Sys2Proof.Laws
end

