-- ==== Sys2Proof/Laws/Reference.lean ====
section
/-! SUPPORT. The laws of the reference functions of Machine/Reference.lean: the four bytes of a word, what `expand` is and
that its recurrence determines it, `compress` in one equation, the bytes of a packed block. -/

namespace Sys2Proof.Machine

/-! ## Four bytes as a word -/

theorem be32_toNat (a b c d : Byte) : 
    (be32 a b c d).toNat = a.toNat * 2 ^ 24 + b.toNat * 2 ^ 16 + c.toNat * 2 ^ 8 + d.toNat := by
  have := a.isLt; have := b.isLt; have := c.isLt; have := d.isLt
  simp only [be32, BitVec.toNat_append]
  rw [← Nat.shiftLeft_add_eq_or_of_lt (by omega), ← Nat.shiftLeft_add_eq_or_of_lt (by omega),
    ← Nat.shiftLeft_add_eq_or_of_lt (by omega)]
  simp [Nat.shiftLeft_eq]; omega

theorem be32_bit (a b c d : Byte) (k : Nat) (hk : k < 32) :
    (be32 a b c d).getLsbD k =
      if k < 8 then d.getLsbD k else if k < 16 then c.getLsbD (k - 8) else if k < 24 then b.getLsbD (k - 16)
      else a.getLsbD (k - 24) := by
  simp only [be32, BitVec.getLsbD_append]
  by_cases h1 : k < 8
  · simp [h1]
  · by_cases h2 : k < 16
    · simp [h1, h2, show k - 8 < 8 by omega]
    · by_cases h3 : k < 24
      · simp [h1, h2, h3, show ¬ k - 8 < 8 by omega, show k - 8 - 8 = k - 16 by omega, show k - 16 < 8 by omega]
      · simp [h1, h2, h3, show ¬ k - 8 < 8 by omega, show ¬ k - 8 - 8 < 8 by omega, show k - 8 - 8 - 8= k - 24 by omega]

theorem dwordByte_bit (v : Len) (k j : Nat) (hj : j < 8) : (dwordByte v k).getLsbD j = v.getLsbD (56 - 8 * k + j) := by
  simp [dwordByte, hj]

/-- Word 14 (`c = 0`) and word 15 (`c = 1`) after the length field is written. -/
theorem readWord_writeDword {m : Mem} (h : memWf m = true) (v : Len) (c : Nat) (hc : c ≤ 1) :
    readWord (writeDword m 56 v) (56 + 4 * c) = v.extractLsb' (32 - 32 * c) 32 := by
  apply BitVec.eq_of_getLsbD_eq
  intro k hk
  simp only [readWord, readByte_writeDword h (show 56 + 8 ≤ blkSize by decide)]
  rw [be32_bit _ _ _ _ _ hk, if_pos (show 56 ≤ 56 + 4 * c ∧ 56 + 4 * c < 56 + 8 by omega),
    if_pos (show 56 ≤ 56 + 4 * c + 1 ∧ 56 + 4 * c + 1 < 56 + 8 by omega),
    if_pos (show 56 ≤ 56 + 4 * c + 2 ∧ 56 + 4 * c + 2 < 56 + 8 by omega),
    if_pos (show 56 ≤ 56 + 4 * c + 3 ∧ 56 + 4 * c + 3 < 56 + 8 by omega)]
  simp only [BitVec.getLsbD_extractLsb', hk, decide_true, Bool.true_and]
  split
  · rw [dwordByte_bit _ _ _ (by omega)]; congr 1; omega
  · split
    · rw [dwordByte_bit _ _ _ (by omega)]; congr 1; omega
    · split
      · rw [dwordByte_bit _ _ _ (by omega)]; congr 1; omega
      · rw [dwordByte_bit _ _ _ (by omega)]; congr 1; omega

/-! ## Blocks -/

/-- A memory that reads as `f` on the 64 addresses holds the block that `f` packs into. -/
theorem blkWords_eq {m : Mem} {f : Nat → Byte} (h : ∀ a, a < 64 → readByte m a = f a) : blkWords m =
    blockOfBytes f := by
  apply Vector.ext
  intro i hi
  simp [blkWords, blockOfBytes, readWord, h (4 * i) (by omega), h (4 * i + 1) (by omega), h (4 * i + 2) (by omega),
    h (4 * i + 3) (by omega)]

theorem blockOfBytes_congr {f g : Nat → Byte} (h : ∀ a, a < 64 → f a = g a) : blockOfBytes f = blockOfBytes g := by
  apply Vector.ext
  intro i hi
  simp [blockOfBytes, h (4 * i) (by omega), h (4 * i + 1) (by omega), h (4 * i + 2) (by omega),
      h (4 * i + 3) (by omega)]

/-! ## `expand` and `compress` -/

/-- `extend` adds one word a step. -/
theorem extend_length (b : List Word) (n : Nat) : (extend b n).length = b.length + n := by
  induction n with
  | zero => rfl
  | succ n ih => simp [extend, ih]; omega

/-- A word once added stays. -/
theorem extend_getD_lt (b : List Word) (n k i : Nat) (h : i < b.length + n) :
    (extend b (n + k)).getD i 0 = (extend b n).getD i 0 := by
  induction k with
  | zero => rfl
  | succ k ih =>
    rw [← ih, ← Nat.add_assoc, extend]
    exact List.getD_append _ _ _ _ (by rw [extend_length]; omega)

theorem extend_rec (b : List Word) (hb : b.length = 16) (n i : Nat) (hi : 16 ≤ i) (h : i < 16 + n) :
   (extend b n).getD i 0 = rotl ((extend b n).getD (i - 3) 0 ^^^ (extend b n).getD (i - 8) 0 ^^^
       (extend b n).getD (i - 14) 0 ^^^ (extend b n).getD (i - 16) 0) 1 (by decide) := by
  obtain ⟨k, rfl⟩ : ∃ k, n = (i - 16 + 1) + k := ⟨n - (i - 16 + 1), by omega⟩
  rw [extend_getD_lt _ _ _ _ (by omega), extend_getD_lt _ _ _ (i - 3) (by omega),
      extend_getD_lt _ _ _ (i - 8) (by omega), extend_getD_lt _ _ _ (i - 14) (by omega),
      extend_getD_lt _ _ _ (i - 16) (by omega)]
  have e : ∀ j, j < i → (extend b (i - 16 + 1)).getD j 0 =
      (extend b (i - 16)).getD j 0 := fun j hj => extend_getD_lt b (i - 16) 1 j (by omega)
  rw [e (i - 3) (by omega), e (i - 8) (by omega), e (i - 14) (by omega), e (i - 16) (by omega)]
  have ee : extend b (i - 16 + 1) = extend b (i - 16) ++ [rotl ((extend b (i - 16)).getD (16 + (i - 16) - 3) 0 ^^^
      (extend b (i - 16)).getD (16 + (i - 16) - 8) 0 ^^^ (extend b (i - 16)).getD (16 + (i - 16) - 14) 0 ^^^
      (extend b (i - 16)).getD (16 + (i - 16) - 16) 0) 1 (by decide)] := rfl
  rw [ee]
  simp only [show 16 + (i - 16) = i by omega]
  rw [List.getD_append_right _ _ _ _ (by rw [extend_length]; omega)]
  simp [extend_length, hb, show i - (16 + (i - 16)) = 0 by omega]

theorem expand_get (B : Block) (i : Nat) (h : i < 80) : (expand B)[i] = (extend B.toList 64).getD i 0 := by
  unfold expand
  exact Vector.getElem_ofFn h

/-- The first sixteen words of the schedule are the block. -/
theorem expand_lo (B : Block) (i : Nat) (h : i < 16) : (expand B)[i] = B[i] := by
  rw [expand_get _ _ (by omega)]
  have := extend_getD_lt B.toList 0 64 i (by simp; omega)
  rw [Nat.zero_add] at this
  rw [this]; simp [extend, List.getD]
  simp [h]

/-- The recurrence of the schedule. -/
theorem expand_hi (B : Block) (i : Nat) (h : 16 ≤ i) (h' : i < 80) : (expand B)[i] = rotl ((expand B)[i - 3] ^^^
    (expand B)[i - 8] ^^^ (expand B)[i - 14] ^^^ (expand B)[i - 16]) 1 (by decide) := by
  simp only [expand_get]
  exact extend_rec _ (by simp) _ _ h (by omega)

/-- The recurrence determines the schedule. -/
theorem expand_unique (B : Block) (w : Vector Word 80) (h1 : ∀ i (h : i < 16), w[i] =
    B[i]) (h2 : ∀ i (h : 16 ≤ i) (h' : i < 80), w[i] = rotl (w[i - 3] ^^^ w[i - 8] ^^^ w[i - 14] ^^^
    w[i - 16]) 1 (by decide)) : ∀ i (h : i < 80), w[i] = (expand B)[i] := by
  intro i
  induction i using Nat.strong_induction_on with
  | _ i ih =>
    intro h
    by_cases hi : i < 16
    · rw [h1 i hi, expand_lo B i hi]
    · rw [h2 i (by omega) h, expand_hi B i (by omega) h, ih (i - 3) (by omega) (by omega),
          ih (i - 8) (by omega) (by omega), ih (i - 14) (by omega) (by omega), ih (i - 16) (by omega) (by omega)]

/-- `compress` as rounds and fold-back. -/
theorem compress_eq (h : Vector Word 5) (b : Block) :
    compress h b = (allRounds (expand b) (Vars.ofAccumulator h)).foldInto h := by
  unfold compress
  rfl

/-! ## The padded stream -/

theorem be64_length (v : Len) : (be64 v).length = 8 := by simp [be64]

theorem be64_getD (v : Len) (k : Nat) (h : k < 8) : (be64 v).getD k 0 = dwordByte v k := by
  simp [be64, List.getD, h]

theorem padBytes_length (m : List Byte) : (padBytes m).length = m.length + 1 + zeroCount m.length + 8 := by
  simp [padBytes, be64_length]; omega

/-- The padded stream byte by byte. -/
theorem padBytes_getD (m : List Byte) (i : Nat) :
    (padBytes m).getD i 0 =
      if i < m.length then m.getD i 0 else if i =
          m.length then 0x80 else if i < m.length + 1 + zeroCount m.length then 0
      else if i < m.length + 1 + zeroCount m.length + 8 then
        dwordByte (bitLength m.length) (i - (m.length + 1 + zeroCount m.length))
      else 0 := by
  unfold padBytes
  by_cases h1 : i < m.length
  · rw [if_pos h1, List.append_assoc, List.append_assoc, List.getD_append _ _ _ _ h1]
  · rw [if_neg h1]
    by_cases h2 : i = m.length
    · rw [if_pos h2]; subst h2
      rw [List.append_assoc, List.append_assoc, List.getD_append_right _ _ _ _ le_rfl]; simp
    · rw [if_neg h2]
      by_cases h3 : i < m.length + 1 + zeroCount m.length
      · rw [if_pos h3, List.getD_append _ _ _ _ (by simp; omega), List.getD_append_right _ _ _ _ (by simp; omega)]
        simp [List.getD]
      · rw [if_neg h3]
        by_cases h4 : i < m.length + 1 + zeroCount m.length + 8
        · rw [if_pos h4, List.getD_append_right _ _ _ _ (by simp; omega)]
          rw [be64_getD _ _ (by simp; omega)]; congr 1; simp; omega
        · rw [if_neg h4]
          apply List.getD_eq_default
          simp [be64_length]; omega

/-- Eight bytes, most significant first, have the value they were made from. -/
theorem be64_value (v : Len) : (be64 v).foldl (fun acc b => acc * 256 + b.toNat) 0 = v.toNat := by
  simp only [be64, List.range_succ, List.range_zero, List.nil_append, List.cons_append, List.map_cons, List.map_nil,
      List.foldl_cons, List.foldl_nil, dwordByte, BitVec.extractLsb'_toNat, Nat.shiftRight_eq_div_pow]
  have := v.isLt
  omega

end Sys2Proof.Machine
end

