-- ==== Sys2Proof/Laws/Sequence.lean ====
section
/-! SUPPORT. What the parts of `SEQ.BLOCK` do, each part once: the loads, the expansions, the load of the working
variables, the rounds, the fold-back. -/

namespace Sys2Proof.Machine

/-- After the first `n` loads the first `n` schedule entries are the block, and nothing else has changed. -/
theorem issue_load (s : State) (n : Nat) (hn : n ≤ 16) :
   ∃ w, issue (((List.finRange 16).take n).map .load) s = s.setW w ∧ (∀ i (h : i < n), w[i]'(by omega) =
       readWord s.blk (4*i)) := by
  induction n with
  | zero => exact ⟨s.w, rfl, by intro i h; omega⟩
  | succ n ih =>
    obtain ⟨w, h1, h2⟩ := ih (by omega)
    have : (List.finRange 16).take (n+1) = (List.finRange 16).take n ++ [⟨n, by omega⟩] := by
      rw [List.take_succ_eq_append_getElem (by simp; omega)]; simp
    rw [this, List.map_append, issue_append, h1]
    refine ⟨_, rfl, fun i hi => ?_⟩
    by_cases h : i = n
    · subst h; simp
    · rw [Vector.getElem_set_ne]; exact h2 i (by omega)
      exact Ne.symm h

/-- After `n` expansions the entries 16 to `15 + n` satisfy the recurrence, the first sixteen are as they were. -/
theorem issue_exp (s : State) (n : Nat) (hn : n ≤ 64) :
   ∃ w, issue (((List.finRange 64).take n).map fun k => MicroOp.exp ⟨⟨16 + k.val, by omega⟩, by simp⟩) s =
       s.setW w ∧ (∀ i (h : i < 16), w[i] = s.w[i]) ∧
    (∀ i (h : 16 ≤ i) (h' : i < 16 + n), w[i]'(by omega) = rotl (w[i - 3] ^^^ w[i - 8] ^^^ w[i - 14] ^^^
        w[i - 16]) 1 (by decide)) := by
  induction n with
  | zero => exact ⟨s.w, rfl, fun _ _ => rfl, by intro i h; omega⟩
  | succ n ih =>
    obtain ⟨w, h1, h2, h3⟩ := ih (by omega)
    have : (List.finRange 64).take (n+1) = (List.finRange 64).take n ++ [⟨n, by omega⟩] := by
      rw [List.take_succ_eq_append_getElem (by simp; omega)]; simp
    rw [this, List.map_append, issue_append, h1]
    refine ⟨w.set (16+n) (extensionWord w ⟨16+n, by omega⟩ (by simp)) (by omega), rfl, fun i hi => ?_,
        fun i hi hi' => ?_⟩
    · rw [Vector.getElem_set_ne]; exact h2 i hi
      omega
    · have hne : ∀ j (hj : j < i) (h80 : j < 80), (w.set (16+n) (extensionWord w ⟨16+n,
          by omega⟩ (by simp)) (by omega))[j] = w[j] := by
        intro j hj h80; rw [Vector.getElem_set_ne]; omega
      rw [hne (i - 3) (by omega), hne (i - 8) (by omega), hne (i - 14) (by omega), hne (i - 16) (by omega)]
      by_cases h : i = 16 + n
      · subst h; rw [Vector.getElem_set_self]; rfl
      · rw [Vector.getElem_set_ne]; exact h3 i hi (by omega)
        omega

theorem issue_initv (s : State) :
    issue [.initv] s = s.setVars (Vars.ofAccumulator s.h).a (Vars.ofAccumulator s.h).b (Vars.ofAccumulator s.h).c
      (Vars.ofAccumulator s.h).d (Vars.ofAccumulator s.h).e := (rfl)

/-- Rounds, one after another, are `roundVars` over the schedule. -/
theorem issue_rnd (l : List (Fin 80)) (s : State) (v : Vars) :
    issue (l.map .rnd) (s.setVars v.a v.b v.c v.d v.e) =
      (let u := l.foldl (fun v t => roundVars t s.w[t.val] v) v
       s.setVars u.a u.b u.c u.d u.e) := by
  induction l generalizing v with
  | nil => rfl
  | cons t l ih => rw [List.map_cons, issue_cons]; exact ih (roundVars t s.w[t.val] v)

theorem issue_rndOps (s : State) (v : Vars) :
    issue rndOps (s.setVars v.a v.b v.c v.d v.e) =
      s.setVars (allRounds s.w v).a (allRounds s.w v).b (allRounds s.w v).c (allRounds s.w v).d (allRounds s.w v).e :=
  issue_rnd _ s v

theorem issue_fold (s : State) (v : Vars) :
    issue [.fold] (s.setVars v.a v.b v.c v.d v.e) = (s.setVars v.a v.b v.c v.d v.e).setH (v.foldInto s.h) := (rfl)

/-! ## The padding that `FINAL` writes -/

/-- The padding of a block with room for the length field. -/
theorem issue_lastPadding (s : State) (hs : memWf s.blk = true) (p : Fin 64) :
    ∃ m, issue ([.mark p] ++ zeroOps (p.val + 1) 55 ++ [.len]) s = s.setBlk m ∧ memWf m = true ∧
      ∀ a < 64, readByte m a = withLengthField s.len (tailByte s.blk p.val) a := by
  refine ⟨_, issue_pad _ ?_ s, issue_wf _ hs, ?_⟩
  · intro u hu
    simp only [List.mem_append, List.mem_singleton, mem_zeroOps] at hu
    rcases hu with (rfl | ⟨q, -, rfl⟩) | rfl <;> rfl
  · intro a ha
    rw [issue_append, issue_append]
    have hm : memWf (issue [MicroOp.mark p] s).blk = true := issue_wf _ hs
    have e : (issue [MicroOp.len] (issue (zeroOps (p.val + 1) 55) (issue [MicroOp.mark p] s))).blk =
        writeDword (issue (zeroOps (p.val + 1) 55) (issue [MicroOp.mark p] s)).blk 56 s.len := by
      rw [issue_cons, issue_nil, perform_len_blk, issue_len, issue_len]
    rw [e, readByte_writeDword (issue_wf _ hm) (by decide), readByte_zeroOps _ _ hm]
    have e2 : readByte (issue [MicroOp.mark p] s).blk a = if a =
        p.val then marker else readByte s.blk a := readByte_writeByte hs ..
    rw [e2]
    unfold withLengthField tailByte marker
    by_cases h1 : a < 56
    · rw [if_neg (show ¬(56 ≤ a ∧ a < 56 + 8) by omega), if_pos h1]
      by_cases h2 : a < p.val
      · rw [if_neg (by omega), if_neg (by omega), if_pos h2]
      · by_cases h3 : a = p.val
        · rw [if_neg (by omega), if_pos h3, if_neg h2, if_pos h3]
        · rw [if_pos (by omega), if_neg h2, if_neg h3]
    · rw [if_pos (show (56 ≤ a ∧ a < 56 + 8) by omega), if_neg h1]

/-- The padding of the first of two closing blocks. -/
theorem issue_firstPadding (s : State) (hs : memWf s.blk = true) (p : Fin 64) :
    ∃ m, issue ([.mark p] ++ zeroOps (p.val + 1) 63) s = s.setBlk m ∧ memWf m = true ∧
      ∀ a < 64, readByte m a = tailByte s.blk p.val a := by
  refine ⟨_, issue_pad _ ?_ s, issue_wf _ hs, ?_⟩
  · intro u hu
    simp only [List.mem_append, List.mem_singleton, mem_zeroOps] at hu
    rcases hu with rfl | ⟨q, -, rfl⟩ <;> rfl
  · intro a ha
    rw [issue_append]
    have hm : memWf (issue [MicroOp.mark p] s).blk = true := issue_wf _ hs
    rw [readByte_zeroOps _ _ hm]
    have e2 : readByte (issue [MicroOp.mark p] s).blk a = if a =
        p.val then marker else readByte s.blk a := readByte_writeByte hs ..
    rw [e2]
    unfold tailByte marker
    by_cases h2 : a < p.val
    · rw [if_neg (by omega), if_neg (by omega), if_pos h2]
    · by_cases h3 : a = p.val
      · rw [if_neg (by omega), if_pos h3, if_neg h2, if_pos h3]
      · rw [if_pos (by omega), if_neg h2, if_neg h3]

/-- The padding of the second of two closing blocks. -/
theorem issue_lengthOnly (s : State) (hs : memWf s.blk = true) :
    ∃ m, issue (zeroOps 0 55 ++ [.len]) s = s.setBlk m ∧ memWf m = true ∧
      ∀ a < 64, readByte m a = withLengthField s.len (fun _ => 0) a := by
  refine ⟨_, issue_pad _ ?_ s, issue_wf _ hs, ?_⟩
  · intro u hu
    simp only [List.mem_append, List.mem_singleton, mem_zeroOps] at hu
    rcases hu with ⟨q, -, rfl⟩ | rfl <;> rfl
  · intro a ha
    rw [issue_append]
    have e : (issue [MicroOp.len] (issue (zeroOps 0 55) s)).blk = writeDword (issue (zeroOps 0 55) s).blk 56 s.len := by
      rw [issue_cons, issue_nil, perform_len_blk, issue_len]
    rw [e, readByte_writeDword (issue_wf _ hs) (by decide), readByte_zeroOps _ _ hs]
    unfold withLengthField
    by_cases h1 : a < 56
    · rw [if_neg (show ¬(56 ≤ a ∧ a < 56 + 8) by omega), if_pos h1, if_pos (by omega)]
    · rw [if_pos (show (56 ≤ a ∧ a < 56 + 8) by omega), if_neg h1]

end Sys2Proof.Machine
end

