-- ==== Sys2Proof/Tests/Slice0.lean ====
section
/-! SUPPORT. Tests whose expected results stand in the spec (the section is named at each), one step each, and for every
statement with hypotheses a witness that meets all of them. -/

namespace Sys2Proof.Tests

open Sys2Proof Sys2Proof.Machine

/-! ## Small states -/

/-- A state in a phase, with a length, a block and an accumulator; every other register as at reset. -/
def at_ (p : Phase) (n : Len) (m : Mem) (h : Vector Word 5) : State := { State.reset with phase := p, len := n, blk := m, h := h }

/-- The state with one host event waiting. -/
def offer (s : State) (e : HostEvent) : State := s.setInbox [e]

/-- The digest of "abc" (95_test_vectors.md section 5.3). -/
def abcDigest : Vector Word 5 := #v[0xA9993E36, 0x4706816A, 0xBA3E2571, 0x7850C26C, 0x9CD0D89D]

def idleS : State := at_ .idle 0 [] (Vector.replicate 5 0)
def openS : State := at_ .absorb 24 [(0, 0x61), (1, 0x62), (2, 0x63)] iv
def doneS : State := at_ .done 24 [(0, 0x61)] abcDigest
def fullS : State := at_ .absorb 0xFFFFFFFFFFFFFFF8 [(62, 0x37)] iv

/-- The state is ready for a command and `w` is the next one: the premises of the statements about a command offered. -/
abbrev Offers (s : State) (w : CmdWord) : Prop := s.uop = none ∧ s.pending = none ∧ s.inbox = [.command w]

/-- What the test looks at, where the outcome is a next state. -/
def after {α : Type} (f : State → α) : Result → Option α
  | .next t => some (f t)
  | .fault _ => none
  | .refused _ => none

/-! ## WellFormed -/

theorem test_wexExp_below_16_is_ill_formed : (Instr.wexExp 15).wellFormed = false := by decide
theorem test_wexExp_16_is_well_formed : (Instr.wexExp 16).wellFormed = true := by decide

/-! ## Decoding: a word of every constructor, bit by bit from the formats (30_encoding.md R70 to R73) -/

theorem test_decode_init : decode (.cmd 0b00000001_00000000) = .ok .init := by decide
theorem test_decode_push : decode (.cmd 0b00000010_10000001) = .ok (.push 0x81) := by decide
theorem test_decode_final : decode (.cmd 0b00000011_00000000) = .ok .final := by decide
theorem test_decode_read : decode (.cmd 0b00000100_00000011) = .ok (.read 3) := by decide
theorem test_decode_stat : decode (.cmd 0b00000101_00000000) = .ok .stat := by decide
theorem test_decode_padPutb : decode (.uop 0b00_00_0100101 0xA7) = .ok (.padPutb 37 0xA7) := by decide
theorem test_decode_padMark : decode (.uop 0b00_01_0111111 0) = .ok (.padMark 63) := by decide
theorem test_decode_padZero : decode (.uop 0b00_10_0110111 0) = .ok (.padZero 55) := by decide
theorem test_decode_padLen : decode (.uop 0b00_11_0000000 0) = .ok .padLen := by decide
theorem test_decode_wexLoad : decode (.uop 0b01_00_0001111 0) = .ok (.wexLoad 15) := by decide
theorem test_decode_wexExp : decode (.uop 0b01_01_1001111 0) = .ok (.wexExp 79) := by decide
theorem test_decode_cmpInitv : decode (.uop 0b10_00_0000000 0) = .ok .cmpInitv := by decide
theorem test_decode_cmpRnd : decode (.uop 0b10_01_0010100 0) = .ok (.cmpRnd 20) := by decide
theorem test_decode_cmpFold : decode (.uop 0b10_10_0000000 0) = .ok .cmpFold := by decide

/-- 95_test_vectors.md section 7.2: reserved words. -/
theorem test_decode_reserved : [0x040, 0x17F, 0x181, 0x210, 0x28F, 0x2D0, 0x300, 0x380, 0x401, 0x4D0, 0x501, 0x580, 0x600,
    0x7FF].map (fun w => decode (.uop w 0)) = List.replicate 14 (.error .reservedUop) := by decide

/-- 30_encoding.md R75: illegal command words. -/
theorem test_decode_illegal : [0x0000, 0xFFFF, 0x0101, 0x0380, 0x0405, 0x0407, 0x0501, 0x0600].map (fun w => decode (.cmd w)) =
    List.replicate 8 (.error .illegalCmd) := by decide

theorem test_table_push : decodeTableWord 16 0x0261 = some (.push 0x61) := by decide
theorem test_table_putb : decodeTableWord 24 0x610002 = some (.padPutb 2 0x61) := by decide
theorem test_table_shared_number : decodeTableWord 16 0x0100 = some .init ∧ decodeTableWord 11 0x0100 = some (.padZero 0) := by
  decide
theorem test_table_reserved : decodeTableWord 11 0x300 = none := by decide
theorem test_fetch_command : step (State.reset.withFetchWord 16 0x0500) = exec .stat State.reset := rfl
theorem test_fetch_after_a_response : step ((State.reset.giveRsp ⟨.ok, 0⟩).withFetchWord 16 0x0500) =
    exec .stat (State.reset.giveRsp ⟨.ok, 0⟩).takeRsp := rfl
theorem test_fetch_uop : step (State.reset.withFetchWord 11 0x400) = exec .cmpInitv State.reset := rfl

/-! ## Arithmetic (95_test_vectors.md sections 2.1 to 2.3) -/

theorem test_add32_wraps : add32 0xFFFFFFFF 1 = 0 := by decide
theorem test_rotl : rotl 0x12345678 1 (by decide) = 0x2468ACF0 ∧ rotl 0x12345678 5 (by decide) = 0x468ACF02 ∧
    rotl 0x12345678 30 (by decide) = 0x048D159E := by decide
theorem test_roundF : [0, 19, 20, 39, 40, 59, 60, 79].map (fun t => roundF t 0xF0F0F0F0 0xCCCCCCCC 0xAAAAAAAA) =
    [0xCACACACA, 0xCACACACA, 0x96969696, 0x96969696, 0xE8E8E8E8, 0xE8E8E8E8, 0x96969696, 0x96969696] := by decide
theorem test_roundConstant : [19, 20, 39, 40, 59, 60].map roundConstant =
    [0x5A827999, 0x6ED9EBA1, 0x6ED9EBA1, 0x8F1BBCDC, 0x8F1BBCDC, 0xCA62C1D6] := by decide

/-- 20_memory.md R53 on the digest of "abc". -/
theorem test_digestValue : digestValue abcDigest = 0xA9993E364706816ABA3E25717850C26C9CD0D89D := by decide

/-! ## The commands -/

/-- X7 of 95_test_vectors.md section 8. -/
theorem test_init : after (fun t => (t.h, t.len, t.phase, t.pending)) (exec .init idleS) =
    some (#v[0x67452301, 0xEFCDAB89, 0x98BADCFE, 0x10325476, 0xC3D2E1F0], 0, .absorb, some ⟨.ok, 0⟩) := by decide
/-- X8. -/
theorem test_init_while_open : exec .init openS = .next (openS.giveRsp ⟨.badPhase, 0⟩) := rfl
/-- X15: at `LEN = 2^64 - 16` the byte goes to 62 and no block is compressed. -/
theorem test_push : after (fun t => (t.blk, t.len, t.h)) (exec (.push 0x5A) (at_ .absorb 0xFFFFFFFFFFFFFFF0 [(62, 0x37)] iv)) =
    some ([(62, 0x5A)], 0xFFFFFFFFFFFFFFF8, iv) := by decide
/-- Section 6.1: the 64th `0x61` compresses the block. -/
theorem test_push_completes_a_block :
    after (fun t => (t.h, t.len)) (exec (.push 0x61) (at_ .absorb 0x1F8 ((List.range 63).map fun a => (a, 0x61)) iv)) =
      some (#v[0xDA4968EB, 0x2E377C1F, 0x884E8F52, 0x83524BEB, 0xE74EBDBD], 0x200) := by decide +kernel
/-- P2: `FINAL` after "abc". -/
theorem test_final : after (fun t => (t.h, t.len, t.phase)) (exec .final openS) = some (abcDigest, 24, .done) := by decide +kernel
/-- X16: two blocks, the second ends in the length field. -/
theorem test_final_two_blocks : after (fun t => (readDword t.blk 56, readByte t.blk 55, t.phase)) (exec .final fullS) =
    some (0xFFFFFFFFFFFFFFF8, 0, .done) := by decide +kernel
/-- X21. -/
theorem test_read : exec (.read 4) doneS = .next (doneS.giveRsp ⟨.ok, 0x9CD0D89D⟩) := rfl
/-- X9. -/
theorem test_read_while_open : exec (.read 0) openS = .next (openS.giveRsp ⟨.badPhase, 0⟩) := rfl
/-- X1, X10, X20. -/
theorem test_stat : [idleS, openS, doneS].map (fun s => exec .stat s) =
    [.next (idleS.giveRsp ⟨.ok, 0⟩), .next (openS.giveRsp ⟨.ok, 1⟩), .next (doneS.giveRsp ⟨.ok, 2⟩)] := rfl
/-- X13, X19. -/
theorem test_len_overflow : exec (.push 0) fullS = .next (fullS.giveRsp ⟨.lenOverflow, 0⟩) ∧
    exec (.push 0x61) (fullS.setPhase .done) = .next ((fullS.setPhase .done).giveRsp ⟨.badPhase, 0⟩) := ⟨rfl, rfl⟩

/-! ## The micro-operations -/

/-- 40_padder.md R103, its example. -/
theorem test_padPutb : after (fun t => readWord t.blk 0) (exec (.padPutb 2 0x63) (at_ .absorb 0 [(0, 0x61), (1, 0x62)] iv)) =
    some 0x61626300 := by decide
/-- 40_padder.md R104, its example. -/
theorem test_padMark : after (fun t => readWord t.blk 0) (exec (.padMark 3) openS) = some 0x61626380 := by decide
/-- 40_padder.md R105, its example; the list stays canonical. -/
theorem test_padZero : after (fun t => t.blk) (exec (.padZero 4) (at_ .absorb 0 [(3, 1), (4, 0x37), (9, 2)] iv)) =
    some [(3, 1), (9, 2)] := by decide
/-- 95_test_vectors.md section 3.4. -/
theorem test_padLen : after (fun t => (readWord t.blk 56, readWord t.blk 60)) (exec .padLen (at_ .absorb 0x123456789ABCDE8 [(57, 9)] iv)) =
    some (0x01234567, 0x89ABCDE8) := by decide
/-- 95_test_vectors.md section 2.5. -/
theorem test_wexLoad : after (fun t => t.w[3]) (exec (.wexLoad 3) (at_ .absorb 0 [(12, 0xDE), (13, 0xAD), (14, 0xBE), (15, 0xEF)] iv)) =
    some 0xDEADBEEF := by decide
/-- 95_test_vectors.md section 2.5. -/
theorem test_wexExp : after (fun t => t.w[16])
    (exec (.wexExp 16) (idleS.setW ((((idleS.w.set 13 1).set 8 2).set 2 4).set 0 0x80000000))) = some 0x0000000F := by decide
/-- 42_compress.md R132, its example. -/
theorem test_cmpInitv : after (fun t => [t.a, t.b, t.c, t.d, t.e]) (exec .cmpInitv openS) =
    some [0x67452301, 0xEFCDAB89, 0x98BADCFE, 0x10325476, 0xC3D2E1F0] := by decide
/-- 42_compress.md R133, its example. -/
theorem test_cmpRnd : after (fun t => [t.a, t.b, t.c, t.d, t.e])
    (exec (.cmpRnd 0) ((idleS.setVars 0x67452301 0xEFCDAB89 0x98BADCFE 0x10325476 0xC3D2E1F0).setW (idleS.w.set 0 0x61626380))) =
    some [0x0116FC33, 0x67452301, 0x7BF36AE2, 0x98BADCFE, 0x10325476] := by decide
/-- 95_test_vectors.md section 2.4, `t = 60`: every addition carries. -/
theorem test_cmpRnd_carries : after (fun t => t.a)
    (exec (.cmpRnd 60) ((idleS.setVars 0xFFFFFFFF 0xFFFFFFFF 0xFFFFFFFF 0xFFFFFFFF 0xFFFFFFFF).setW (idleS.w.set 60 0xFFFFFFFF))) =
    some 0xCA62C1D2 := by decide
/-- 95_test_vectors.md section 5.3. -/
theorem test_cmpFold : after (fun t => t.h) (exec .cmpFold (openS.setVars 0x42541B35 0x5738D5E1 0x21834873 0x681E6DF6 0xD8FDF6AD)) =
    some abcDigest := by decide

/-! ## Steps -/

/-- X5: illegal is reported before the phase. -/
theorem test_step_illegal : step (offer idleS (.command 0x0407)) = .next (idleS.giveRsp ⟨.illegalCmd, 0⟩) := rfl
/-- X12: not a `FINAL`. -/
theorem test_step_illegal_final : step (offer openS (.command 0x0380)) = .next (openS.giveRsp ⟨.illegalCmd, 0⟩) := rfl
/-- Z1 of 95_test_vectors.md section 10: after reset `READ 0` is rejected. -/
theorem test_reset_event : after (fun t => (t.phase, t.inbox, t.rsps)) (step (offer doneS .reset)) = some (.idle, [], []) := rfl
/-- 43_driver.md R160: with the response to `INIT` not taken, `PUSH` waits; the host then takes the response. -/
theorem test_wait_for_the_host :
    step ((idleS.giveRsp ⟨.ok, 0⟩).setInbox [.command 0x0261]) = .next ((idleS.giveRsp ⟨.ok, 0⟩).setInbox [.command 0x0261]) ∧
    after (fun t => (t.inbox, t.pending, t.rsps)) (step ((idleS.giveRsp ⟨.ok, 0⟩).setInbox [.command 0x0261, .take])) =
      some ([.command 0x0261], none, [⟨.ok, 0⟩]) := ⟨rfl, rfl⟩
/-- 70_reset_and_hazards.md R190, R191: no command is pending after reset, no response is owed. -/
theorem test_reset_while_waiting :
    after (fun t => (t.phase, t.inbox, t.pending, t.rsps))
      (step ((openS.giveRsp ⟨.ok, 0⟩).setInbox [.command 0x0261, .reset, .command 0x0500])) =
      some (.idle, [.command 0x0500], none, []) := rfl
/-- 30_encoding.md R77. -/
theorem test_step_reserved : step (idleS.setUop (some (0x300, 0))) = .refused .reservedUop := rfl
/-- 95_test_vectors.md section 7.3. -/
theorem test_response_word : (Response.mk .ok 0xDA39A3EE).word = 0x0DA39A3EE ∧ (Response.mk .lenOverflow 0).word = 0x300000000 := by
  decide

/-! ## The syntax (30_encoding.md R83 to R85) -/

theorem test_assemble_push : assembleLine "  PUSH 'a' ; first byte".toList = some [0x0261] := by decide +kernel
theorem test_assemble_msgx : assembleLine "MSGX 61 ff".toList = some [0x0100, 0x0261, 0x02FF, 0x0300] := by decide +kernel
theorem test_assemble_out_of_range : assembleLine "READ 5".toList = none := by decide +kernel
theorem test_trace_putb : (MicroOp.putb 0 0x61).traceLine = "PAD.PUTB 0, 0x61" := by decide +kernel

/-! ## Witnesses: for each statement with hypotheses, states and operands that meet them, at the edges of the ranges -/

theorem witness_DecodeOfEncodeIsIdentity : (Instr.wexExp 16).WellFormed ∧ (Instr.wexExp 79).WellFormed := by decide

theorem witness_DecodedWordsEncodeBack : decode (.cmd 0x02FF) = .ok (.push 0xFF) ∧ decode (.uop 0x03F 7) = .ok (.padPutb 63 7) := by
  decide

theorem witness_ReservedMicroOperationsRefused :
    ((idleS.setUop (some (0x28F, 0))).uop = some (0x28F, 0) ∧ reservedWord 0x28F) ∧
    ((idleS.setUop (some (0x290, 0))).uop = some (0x290, 0) ∧ ¬reservedWord 0x290) := by
  unfold reservedWord; decide

theorem witness_RotateLeftMovesEveryBit : (0 < 1 ∧ 1 < 32) ∧ 0 < 31 ∧ 31 < 32 := by decide

theorem witness_RoundFunctionAndConstantByQuartile :
    (19 : Fin 80).val ≤ 19 ∧ 20 ≤ (20 : Fin 80).val ∧ (39 : Fin 80).val ≤ 39 ∧ 40 ≤ (40 : Fin 80).val ∧
    (59 : Fin 80).val ≤ 59 ∧ 60 ≤ (60 : Fin 80).val := by decide

theorem witness_WordViewOfTheBlock : memWf [(0, 0x61), (63, 0xFF)] = true ∧
    (0 = 3 / 4 ∧ 24 - 8 * (3 % 4) ≤ 0 ∧ 7 ≤ 31 - 8 * (3 % 4)) ∧ (0 = 0 / 4 ∧ 24 - 8 * (0 % 4) ≤ 24 ∧ 31 ≤ 31 - 8 * (0 % 4)) := by
  decide

theorem witness_PadderBytesStored : memWf openS.blk = true ∧ openS.blk ≠ [] := by decide

theorem witness_LengthFieldStored : memWf fullS.blk = true ∧ readByte fullS.blk 62 = 0x37 := by decide

theorem witness_ScheduleExpansionWord : 16 ≤ (16 : Fin 80).val ∧ 16 ≤ (79 : Fin 80).val ∧ (15 : Fin 80).val < 16 := by decide

theorem witness_ScheduleIsTheExpansionOfTheBlock : 16 ≤ (16 : Fin 80).val ∧ 16 ≤ (79 : Fin 80).val := by decide

theorem witness_FoldBackIntoTheAccumulator : MicroOp.initv ≠ .fold ∧ MicroOp.rnd 79 ≠ .fold := by decide

theorem witness_InitOpensAMessage : openS.phase = .absorb ∧ idleS.phase ≠ .absorb ∧ doneS.phase ≠ .absorb := by decide

/-- The clauses of `PUSH`: not open; at the longest message; `p = 3` and `p = 62` inside a block, `p = 63` at its end. -/
theorem witness_PushAppendsAByte :
    (idleS.phase ≠ .absorb ∧ doneS.phase ≠ .absorb ∧ memWf doneS.blk = true) ∧
    (fullS.phase = .absorb ∧ fullS.len = 0xFFFFFFFFFFFFFFF8 ∧ memWf fullS.blk = true) ∧
    (openS.phase = .absorb ∧ openS.len ≠ 0xFFFFFFFFFFFFFFF8 ∧ memWf openS.blk = true ∧ openS.len.toNat / 8 % 64 = 3) ∧
    (BitVec.toNat (0xFFFFFFFFFFFFFFF0 : Len) / 8 % 64 = 62) ∧
    ((at_ .absorb 0x1F8 [] iv).len.toNat / 8 % 64 = 63 ∧ (at_ .absorb 0x1F8 [] iv).len ≠ 0xFFFFFFFFFFFFFFF8 ∧
      (at_ .absorb 0x1F8 [] iv).phase = .absorb ∧ memWf (at_ .absorb 0x1F8 [] iv).blk = true) := by decide

/-- The clauses of `FINAL`: not open; `p = 0` and `p = 55` with one block; `p = 56` and `p = 63` with two. -/
theorem witness_FinalPadsAndCompresses :
    (doneS.phase ≠ .absorb ∧ memWf doneS.blk = true) ∧
    ((at_ .absorb 0 [] iv).phase = .absorb ∧ (at_ .absorb 0 [] iv).len.toNat / 8 % 64 = 0) ∧
    ((at_ .absorb 0x1B8 [] iv).phase = .absorb ∧ (at_ .absorb 0x1B8 [] iv).len.toNat / 8 % 64 = 55 ∧ memWf openS.blk = true) ∧
    ((at_ .absorb 0x1C0 [] iv).phase = .absorb ∧ (at_ .absorb 0x1C0 [] iv).len.toNat / 8 % 64 = 56) ∧
    (fullS.phase = .absorb ∧ fullS.len.toNat / 8 % 64 = 63 ∧ memWf fullS.blk = true) := by decide

theorem witness_ReadAnswersTheDigestWord : doneS.phase = .done ∧ idleS.phase ≠ .done ∧ openS.phase ≠ .done ∧
    5 ≤ (5 : Byte).toNat ∧ 5 ≤ (255 : Byte).toNat := by decide

theorem witness_StatAnswersThePhase : idleS.phase = .idle ∧ openS.phase = .absorb ∧ doneS.phase = .done := by decide

theorem openS_inv : openS.Inv := ⟨by decide, fun _ => by decide, rfl, fun _ h => nomatch h⟩
theorem fullS_inv : fullS.Inv := ⟨by decide, fun _ => by decide, rfl, fun _ h => nomatch h⟩
theorem doneS_inv : doneS.Inv := ⟨by decide, fun _ => by decide, rfl, fun _ h => nomatch h⟩

theorem witness_LengthNeverWraps : (doneS.Inv ∧ doneS.phase ≠ .absorb) ∧
    (openS.Inv ∧ openS.phase = .absorb ∧ openS.len.toNat < 2 ^ 64 - 8) ∧
    (fullS.Inv ∧ fullS.phase = .absorb ∧ fullS.len.toNat = 2 ^ 64 - 8) :=
  ⟨⟨doneS_inv, by decide⟩, ⟨openS_inv, by decide⟩, ⟨fullS_inv, by decide⟩⟩

theorem witness_PositionIsByteCountMod64 : BitVec.toNat (0x7A1200 : Len) % 8 = 0 ∧ BitVec.toNat (0xFFFFFFFFFFFFFFF8 : Len) % 8 = 0 := by
  decide

theorem witness_StepRunsTheDecodedOperation :
    ((idleS.setUop (some (0x4CF, 0))).uop = some (0x4CF, 0) ∧ decode (.uop 0x4CF 0) = .ok (.cmpRnd 79)) ∧
    (Offers (offer openS (.command 0x0300)) 0x0300 ∧ decode (.cmd 0x0300) = .ok .final) ∧
    decodeTableWord 16 0x0404 = some (.read 4) := by decide

/-- A response stands on the channel: with two commands waiting, with none; with a take and with a reset behind them. -/
theorem witness_NoCommandUntilResponseTaken :
    let s := openS.giveRsp ⟨.ok, 0⟩
    s.uop = none ∧ s.pending = some ⟨.ok, 0⟩ ∧
    (s.setInbox [.command 0x0261, .command 0x0300]).inbox = ([0x0261, 0x0300] : List CmdWord).map HostEvent.command ∧
    (s.setInbox [.take]).inbox = ([] : List CmdWord).map HostEvent.command ++ .take :: [] ∧
    (s.setInbox [.command 0x0261, .reset, .take]).inbox = ([0x0261] : List CmdWord).map HostEvent.command ++ .reset :: [.take] := by
  decide

theorem witness_WaitingHoldsTheState : openS.uop = none ∧ openS.inbox = [] := by decide

/-- Commands offered: illegal words, a word rejected for its phase, one for the length, and accepted ones. -/
theorem witness_IllegalWordsAnswered :
    (Offers (offer openS (.command 0x0405)) 0x0405 ∧ illegalWord 0x0405) ∧
    (Offers (offer doneS (.command 0x0404)) 0x0404 ∧ ¬illegalWord 0x0404) ∧
    illegalWord 0x0000 ∧ illegalWord 0x0600 ∧ illegalWord 0x0101 ∧ ¬illegalWord 0x02FF := by
  unfold illegalWord; decide

theorem witness_ChecksInPriorityOrder :
    (Offers (offer fullS (.command 0x0405)) 0x0405 ∧ illegalWord 0x0405) ∧
    (Offers (offer doneS (.command 0x0261)) 0x0261 ∧ ¬illegalWord 0x0261 ∧ doneS.phase ≠ .absorb ∧
      (BitVec.extractLsb' 8 8 (0x0261 : CmdWord)).toNat = 2) ∧
    (Offers (offer fullS (.command 0x0200)) 0x0200 ∧ ¬illegalWord 0x0200 ∧ fullS.phase = .absorb ∧
      fullS.len = 0xFFFFFFFFFFFFFFF8) ∧
    (Offers (offer openS (.command 0x0200)) 0x0200 ∧ openS.phase = .absorb ∧ openS.len ≠ 0xFFFFFFFFFFFFFFF8) := by
  unfold illegalWord; decide

theorem witness_RejectionChangesNothing : ∃ t r, Offers (offer fullS (.command 0x0200)) 0x0200 ∧
    step (offer fullS (.command 0x0200)) = .next t ∧ t.pending = some r ∧ r.code ≠ .ok :=
  ⟨fullS.giveRsp ⟨.lenOverflow, 0⟩, ⟨.lenOverflow, 0⟩, by decide, rfl, by decide, by decide⟩

theorem witness_PhaseTransitionTable :
    (Offers (offer doneS (.command 0x0100)) 0x0100 ∧ decode (.cmd 0x0100) = .ok .init ∧ admits doneS.phase .init = true) ∧
    (Offers (offer doneS (.command 0x0300)) 0x0300 ∧ decode (.cmd 0x0300) = .ok .final ∧ admits doneS.phase .final = false) ∧
    (Offers (offer openS (.command 0x0600)) 0x0600 ∧ decode (.cmd 0x0600) = .error .illegalCmd) ∧
    (offer openS .reset).uop = none ∧ (offer openS .reset).inbox = [.reset] := by decide

theorem witness_OneResponsePerCommandInOrder :
    let s := openS.setInbox [.command 0x0261, .take, .command 0x0405, .take, .reset]
    (s.inbox = exchange [0x0261, 0x0405] ++ [.reset] ∧ s.uop = none ∧ s.pending = none ∧
      decode (.cmd 0x0261) = .ok (.push 0x61)) ∧
    ((openS.giveRsp ⟨.ok, 0⟩).pending = some ⟨.ok, 0⟩ ∧
      ((openS.giveRsp ⟨.ok, 0⟩).setInbox [.command 0x0261]).inbox = ([0x0261] : List CmdWord).map HostEvent.command) := by decide

theorem witness_ResponseWordContents : ∃ t, Offers (offer doneS (.command 0x0404)) 0x0404 ∧
    step (offer doneS (.command 0x0404)) = .next t ∧ t.pending = some ⟨.ok, 0x9CD0D89D⟩ ∧
    (0x0404 : CmdWord) = BitVec.ofNat 16 (0x0400 + (4 : Fin 5).val) :=
  ⟨doneS.giveRsp ⟨.ok, 0x9CD0D89D⟩, by decide, rfl, by decide, by decide⟩

theorem witness_ResetGoesToIdle : (offer doneS .reset).uop = none ∧ (offer doneS .reset).inbox = [.reset] := by decide

theorem witness_DigestImmutableUntilInit : ∃ t, Offers (offer doneS (.command 0x0261)) 0x0261 ∧ doneS.phase = .done ∧
    (0x0261 : CmdWord) ≠ 0x0100 ∧ step (offer doneS (.command 0x0261)) = .next t :=
  ⟨doneS.giveRsp ⟨.badPhase, 0⟩, by decide, by decide, by decide, rfl⟩

theorem witness_StepKeepsInvariant : ∃ t, (offer fullS (.command 0x0200)).Inv ∧ step (offer fullS (.command 0x0200)) = .next t :=
  ⟨fullS.giveRsp ⟨.lenOverflow, 0⟩, ⟨by decide, fun _ => by decide, rfl, fun _ h => nomatch h⟩, rfl⟩

theorem witness_SoundRunsNeverStop : fullS.Inv ∧ openS.Inv := ⟨fullS_inv, openS_inv⟩

theorem witness_PaddedStreamContract : ([0x61, 0x62, 0x63] : List Byte).length < 2 ^ 61 ∧
    0 < (pad [0x61, 0x62, 0x63]).length ∧ (3 + 1 + 52) % 64 = 56 := by decide

theorem witness_MessageCommandsComputeSha1 :
    let s := doneS.setInbox [.command 0x0100, .take, .command 0x0261, .take, .command 0x0300, .take, .reset]
    ([0x61] : List Byte).length ≤ 2 ^ 61 - 1 ∧ s.uop = none ∧ s.pending = none ∧ memWf s.blk = true ∧ s.phase ≠ .absorb ∧
    s.inbox = exchange ([0x0100] ++ ([0x61] : List Byte).map (fun b => 0x0200 + b.setWidth 16) ++ [0x0300]) ++ [.reset] := by
  decide

/-- Two open states that differ in dead bytes of `BLK`, in `W` and in `A`, and agree on the three bytes that count. -/
theorem witness_StaleBytesNeverEnterABlock :
    let s := openS
    let t := ((openS.setBlk [(0, 0x61), (1, 0x62), (2, 0x63), (40, 0x99)]).setW (openS.w.set 5 7)).setVars 1 0 0 0 0
    s ≠ t ∧ memWf s.blk = true ∧ memWf t.blk = true ∧ s.phase = .absorb ∧ t.phase = .absorb ∧ s.h = t.h ∧ s.len = t.len ∧
      (pos s.len).val = 3 ∧ ∀ a : Nat, a < 3 → readByte s.blk a = readByte t.blk a := by decide

/-- Two such states agree. -/
theorem witness_StepKeepsAgreement :
    ∃ s t : State, s ≠ t ∧ s.phase = .absorb ∧ Agree s t :=
  ⟨openS, openS.setBlk [(0, 0x61), (1, 0x62), (2, 0x63), (40, 0x99)], by decide, rfl,
    ⟨rfl, rfl, rfl, rfl, rfl, rfl, by decide, by decide, fun _ => rfl, fun _ => rfl, fun _ a ha => by
      have h : ∀ a : Nat, a < 3 → readByte openS.blk a = readByte (openS.setBlk [(0, 0x61), (1, 0x62), (2, 0x63), (40, 0x99)]).blk a := by
        decide
      exact h a ha, fun _ => rfl⟩⟩

theorem witness_UnspecifiedValuesNeverReachAResponse :
    let s := offer idleS (.command 0x0100)
    let t := offer (at_ .idle 5 [(9, 1)] iv) (.command 0x0100)
    s ≠ t ∧ s.phase = .idle ∧ t.phase = .idle ∧ s.uop = none ∧ t.uop = none ∧ memWf s.blk = true ∧ memWf t.blk = true ∧
      s.inbox = t.inbox ∧ s.pending = t.pending ∧ s.rsps = t.rsps := by decide

theorem witness_MessagesDoNotInfluenceEachOther :
    let s := offer idleS (.command 0x0100)
    let t := offer (doneS.giveRsp ⟨.ok, 0⟩).takeRsp (.command 0x0100)
    s.phase ≠ .absorb ∧ t.phase ≠ .absorb ∧ s.uop = none ∧ t.uop = none ∧ memWf s.blk = true ∧ memWf t.blk = true ∧
      s.pending = none ∧ t.pending = none ∧
      s.inbox = [.command 0x0100] ∧ t.inbox = [.command 0x0100] ∧ s.rsps ≠ t.rsps := by decide

theorem witness_AssemblyLinesAsTabled : (255 ≤ 255 ∧ 255 < 256) ∧ (4 < 5 ∧ 0xFFFF ≤ 0xFFFF ∧ 0xFFFF < 0x10000) := by decide

/-- The texts of `MSG`: both ends of the printable range, and a character on either side of it. -/
theorem witness_AssemblyLinesAsTabled_msg : (∀ c ∈ [' ', '~'], 0x20 ≤ c.toNat ∧ c.toNat ≤ 0x7E) ∧
    ('\n' ∈ ['a', '\n'] ∧ '\n'.toNat < 0x20) ∧ '\x7f' ∈ ['\x7f'] ∧ 0x7E < '\x7f'.toNat :=
  ⟨by simp, by simp, by simp⟩

end Sys2Proof.Tests
end

section
/-! The arithmetic primitives of 00_scope.md, R1 and R2: word addition and rotation to the left. -/

namespace Sys2Proof.Machine

/-! ## Word addition -/

theorem add32_toNat (x y : Word) : (add32 x y).toNat = (x.toNat + y.toNat) % 2 ^ 32 := by
  rw [add32_eq, BitVec.toNat_add]

theorem add32_assoc (x y z : Word) : add32 (add32 x y) z = add32 x (add32 y z) := by
  simp only [add32_eq, BitVec.add_assoc]

theorem add32_comm (x y : Word) : add32 x y = add32 y x := by
  simp only [add32_eq, BitVec.add_comm]

/-- Settles O7: the model's word addition is that of `BitVec 32`. -/
theorem wordAdditionWraps : Obligations.WordAdditionWraps :=
  ⟨add32_toNat, add32_assoc, add32_comm⟩

/-! ## Rotation to the left -/

theorem rotl_toNat (x : Word) (n : Nat) (h : 0 < n ∧ n < 32) :
    (rotl x n h).toNat = (x.toNat * 2 ^ n % 2 ^ 32) ||| (x.toNat / 2 ^ (32 - n)) := by
  rw [rotl, BitVec.toNat_or, BitVec.toNat_shiftLeft, BitVec.toNat_ushiftRight, Nat.shiftLeft_eq,
    Nat.shiftRight_eq_div_pow]

/-- On the amounts for which `rotl` is defined it is the library's rotation. -/
theorem rotl_eq_rotateLeft (x : Word) (n : Nat) (h : 0 < n ∧ n < 32) : rotl x n h = x.rotateLeft n := by
  rw [rotl, BitVec.rotateLeft_def, Nat.mod_eq_of_lt h.2]

/-- The low `n` bits of a rotation are the bits that left at the top; the others moved up by `n`. -/
theorem rotl_getLsbD (x : Word) (n : Nat) (h : 0 < n ∧ n < 32) (i : Nat) (hi : i < 32) :
    (rotl x n h).getLsbD i = x.getLsbD ((i + (32 - n)) % 32) := by
  rw [rotl_eq_rotateLeft, BitVec.getLsbD_rotateLeft, Nat.mod_eq_of_lt h.2]
  by_cases wraps : i < n
  · have source : (i + (32 - n)) % 32 = 32 - n + i := by omega
    simp only [wraps, decide_true, cond_true, source]
  · have source : (i + (32 - n)) % 32 = i - n := by omega
    simp only [wraps, hi, decide_true, decide_false, cond_false, Bool.true_and, source]

/-- Settles O8: the formula is that of the two shifts, and each bit is found by whether it came round from the top. -/
theorem rotateLeftMovesEveryBit : Obligations.RotateLeftMovesEveryBit :=
  fun x n h => ⟨rotl_toNat x n h, rotl_getLsbD x n h⟩

end Sys2Proof.Machine
end

section
/-! The `STAT` command: its word and its answer in each phase (43_driver.md R154, 10_state.md R31). -/

namespace Sys2Proof.Machine

/-- The phase occupies bits 1:0 only, whatever its code. -/
theorem statWord_high_bits (p : Phase) : (statWord p).extractLsb' 2 30 = 0 := by
  ext i hi
  simp [statWord]

@[simp] theorem statWord_idle : statWord .idle = 0 := rfl
@[simp] theorem statWord_absorb : statWord .absorb = 1 := rfl
@[simp] theorem statWord_done : statWord .done = 2 := rfl

theorem decode_stat_word : decode (.cmd 0x0500) = .ok .stat := by decide

theorem exec_stat (s : State) : exec .stat s = .next (s.giveRsp ⟨.ok, statWord s.phase⟩) :=
  execStat_eq s

/-- Settles O29: the data is the `STAT` word of the phase, which is a word of two bits. -/
theorem statAnswersThePhase : Obligations.StatAnswersThePhase := fun s =>
  ⟨decode_stat_word, statWord s.phase, exec_stat s, statWord_high_bits s.phase,
    fun idle => by rw [idle, statWord_idle],
    fun absorb => by rw [absorb, statWord_absorb],
    fun done => by rw [done, statWord_done]⟩

end Sys2Proof.Machine
end

section
/-! The word view of the block register (20_memory.md R50 to R52). -/

namespace Sys2Proof.Machine

/-- Bit `k` of the word at `a` lies in the byte `3 - k / 8` places after `a`, at place `k % 8`. -/
theorem readWord_getLsbD (m : Mem) (a k : Nat) (hk : k < 32) :
    (readWord m a).getLsbD k = (readByte m (a + (3 - k / 8))).getLsbD (k % 8) := by
  rw [readWord, be32_bit _ _ _ _ k hk]
  split_ifs with h8 h16 h24
  · rw [show k / 8 = 0 by omega, show k % 8 = k by omega]
  · rw [show k / 8 = 1 by omega, show k % 8 = k - 8 by omega]
  · rw [show k / 8 = 2 by omega, show k % 8 = k - 16 by omega]
  · rw [show k / 8 = 3 by omega, show k % 8 = k - 24 by omega]; rfl

theorem readWord_toNat (m : Mem) (a : Nat) :
    (readWord m a).toNat = (readByte m a).toNat * 2 ^ 24 + (readByte m (a + 1)).toNat * 2 ^ 16 +
      (readByte m (a + 2)).toNat * 2 ^ 8 + (readByte m (a + 3)).toNat :=
  be32_toNat _ _ _ _

theorem blkWords_get (m : Mem) (i : Fin 16) : (blkWords m)[i.val] = readWord m (4 * i.val) := by
  simp [blkWords]

/-- A byte write reaches bit `k` of word `i` exactly when the byte that holds the bit is the one written. -/
theorem readWord_writeByte_getLsbD {m : Mem} (h : memWf m = true) (j : Nat) (v : Byte) (i k : Nat) (hk : k < 32) :
    (readWord (writeByte m j v) (4 * i)).getLsbD k =
      if i = j / 4 ∧ 24 - 8 * (j % 4) ≤ k ∧ k ≤ 31 - 8 * (j % 4) then v.getLsbD (k - (24 - 8 * (j % 4)))
      else (readWord m (4 * i)).getLsbD k := by
  rw [readWord_getLsbD _ _ k hk, readWord_getLsbD _ _ k hk, readByte_writeByte h]
  have hits : 4 * i + (3 - k / 8) = j ↔ i = j / 4 ∧ 24 - 8 * (j % 4) ≤ k ∧ k ≤ 31 - 8 * (j % 4) := by omega
  by_cases written : 4 * i + (3 - k / 8) = j
  · rw [if_pos written, if_pos (hits.mp written), show k - (24 - 8 * (j % 4)) = k % 8 by omega]
  · rw [if_neg written, if_neg (mt hits.mpr written)]

/-- Settles O10: a bit of a word is a bit of one byte, so a byte write is seen bit by bit. -/
theorem wordViewOfTheBlock : Obligations.WordViewOfTheBlock := fun m wf =>
  ⟨fun i => ⟨blkWords_get m i, readWord_toNat m _⟩,
    fun j v i k hk => readWord_writeByte_getLsbD wf j v i k hk,
    fun v => ⟨readWord_writeDword wf v 0 (by decide), readWord_writeDword wf v 1 (by decide)⟩⟩

end Sys2Proof.Machine
end

section
/-! The micro-operation `PAD.LEN` (20_memory.md R51, 40_padder.md R106). -/

namespace Sys2Proof.Machine

theorem decode_padLen_word : decode (.uop 0x180 0) = .ok .padLen := by decide

theorem exec_padLen (s : State) : exec .padLen s = .next (s.setBlk (writeDword s.blk 56 s.len)) := rfl

theorem readByte_lengthField {m : Mem} (h : memWf m = true) (v : Len) (k : Nat) (hk : k < 8) :
    readByte (writeDword m 56 v) (56 + k) = dwordByte v k := by
  rw [readByte_writeDword h (by decide), if_pos (by omega), Nat.add_sub_cancel_left]

theorem readByte_outside_lengthField {m : Mem} (h : memWf m = true) (v : Len) (a : Nat) (ha : a < 56 ∨ 64 ≤ a) :
    readByte (writeDword m 56 v) a = readByte m a := by
  rw [readByte_writeDword h (by decide), if_neg (by omega)]

/-- Settles O12: the memory stored is the length written at 56. -/
theorem lengthFieldStored : Obligations.LengthFieldStored := fun s wf =>
  ⟨decode_padLen_word, writeDword s.blk 56 s.len, exec_padLen s, writeDword_wf wf (by decide) s.len,
    readByte_lengthField wf s.len, readByte_outside_lengthField wf s.len,
    readWord_writeDword wf s.len 0 (by decide), readWord_writeDword wf s.len 1 (by decide)⟩

end Sys2Proof.Machine
end

section
/-! The micro-operation map (30_encoding.md R73): the nine rows by their fields, and the fields by match and mask. -/

namespace Sys2Proof

/-- The fields `unit`, `uop` and `idx` of a micro-operation's row; a command has none. `decode_uop_ok_iff` ties them to the
decoder. -/
def uopFields : Instr → Option (Nat × Nat × Nat)
  | .padPutb p _ => some (0, 0, p.val)
  | .padMark p => some (0, 1, p.val)
  | .padZero p => some (0, 2, p.val)
  | .padLen => some (0, 3, 0)
  | .wexLoad i => some (1, 0, i.val)
  | .wexExp i => some (1, 1, i.val)
  | .cmpInitv => some (2, 0, 0)
  | .cmpRnd t => some (2, 1, t.val)
  | .cmpFold => some (2, 2, 0)
  | .init | .push _ | .final | .read _ | .stat => none

/-- What the map asks of an operation besides its fields: the data byte of `PAD.PUTB` is the one on the lines, and the index
of `WEX.EXP` is 16 or more. -/
def uopOperandOk (data : Byte) : Instr → Prop
  | .padPutb _ b => b = data
  | .wexExp i => 16 ≤ i.val
  | _ => True

/-- A word names an operation exactly when it has the fields of the operation's row. -/
theorem decode_uop_ok_iff (w : UopWord) (data : Byte) (i : Instr) :
    decode (.uop w data) = .ok i ↔ uopFields i = some (uopUnit w, uopOp w, uopIdx w) ∧ uopOperandOk data i := by
  constructor
  · intro named
    rcases decodeUop_cases w data with ⟨p, unit, op, idx, d⟩ | ⟨p, unit, op, idx, d⟩ | ⟨p, unit, op, idx, d⟩ |
      ⟨unit, op, idx, d⟩ | ⟨i, unit, op, idx, d⟩ | ⟨i, low, unit, op, idx, d⟩ | ⟨unit, op, idx, d⟩ |
      ⟨t, unit, op, idx, d⟩ | ⟨unit, op, idx, d⟩ | ⟨-, d⟩ <;> rw [d] at named <;> cases named <;>
      simp_all [uopFields, uopOperandOk]
  · rintro ⟨fields, operand⟩
    cases i <;> simp only [uopFields, reduceCtorEq, Option.some.injEq, Prod.mk.injEq] at fields <;>
      obtain ⟨unit, op, idx⟩ := fields <;> simp [decode, decodeUop, ← unit, ← op, ← idx, indexBelow]
    case padPutb p b => exact operand.symm
    case wexExp i =>
      have low : 16 ≤ i.val := operand
      simp [low]

/-- The number of a word is put together from its three fields. -/
theorem toNat_eq_uop_fields (w : UopWord) : w.toNat = uopUnit w * 512 + uopOp w * 128 + uopIdx w := by
  unfold uopUnit uopOp uopIdx
  omega

/-- Masking off the low `k` bits of a micro-operation word rounds its number down to a multiple of `2 ^ k`. -/
theorem and_highMask_eq_iff (w m : UopWord) (k : Nat) :
    w &&& BitVec.allOnes 11 <<< k = m ↔ w.toNat / 2 ^ k * 2 ^ k = m.toNat := by
  have small : w.toNat / 2 ^ k * 2 ^ k < 2 ^ 11 := (Nat.div_mul_le_self _ _).trans_lt w.isLt
  rw [← BitVec.shiftLeft_ushiftRight, ← BitVec.toNat_inj, BitVec.toNat_shiftLeft, BitVec.toNat_ushiftRight,
    Nat.shiftRight_eq_div_pow, Nat.shiftLeft_eq, Nat.mod_eq_of_lt small]

/-- The match column of a row: its word with the index 0. -/
theorem uopFields_match {i : Instr} {unit op n : Nat} (row : uopFields i = some (unit, op, n)) :
    op < 4 ∧ (uopWord unit op 0).toNat = unit * 512 + op * 128 := by
  cases i <;> simp only [uopFields, reduceCtorEq, Option.some.injEq, Prod.mk.injEq] at row <;>
    obtain ⟨rfl, rfl, -⟩ := row <;> decide

/-- A row whose index fits into `k` bits: the word is selected by its bits from `k` on, and the index is read from `idx`. -/
theorem decode_uop_ok_iff_highMask (w : UopWord) (data : Byte) {i : Instr} {unit op n : Nat}
    (row : uopFields i = some (unit, op, n)) (k : Nat) (hk : k ≤ 7) (hn : n < 2 ^ k) :
    decode (.uop w data) = .ok i ↔
      (w &&& BitVec.allOnes 11 <<< k = uopWord unit op 0 ∧ (w.extractLsb' 0 7).toNat = n) ∧ uopOperandOk data i := by
  obtain ⟨hop, number⟩ := uopFields_match row
  have fields : (unit = uopUnit w ∧ op = uopOp w ∧ n = uopIdx w) ↔
      w.toNat / 2 ^ k * 2 ^ k = unit * 512 + op * 128 ∧ uopIdx w = n := by
    unfold uopUnit uopOp uopIdx
    interval_cases k <;> omega
  rw [decode_uop_ok_iff, row, and_highMask_eq_iff, number, ← uopIdx_eq, ← fields]
  simp

/-- A row without an operand: the word is the row's. -/
theorem decode_uop_ok_iff_fullMask (w : UopWord) (data : Byte) {i : Instr} {unit op : Nat}
    (row : uopFields i = some (unit, op, 0)) (operand : uopOperandOk data i) :
    decode (.uop w data) = .ok i ↔ w &&& BitVec.allOnes 11 <<< 0 = uopWord unit op 0 := by
  have noIndex : w &&& BitVec.allOnes 11 <<< 0 = uopWord unit op 0 → (w.extractLsb' 0 7).toNat = 0 := by
    rw [and_highMask_eq_iff, (uopFields_match row).2, ← uopIdx_eq, uopIdx]
    omega
  rw [decode_uop_ok_iff_highMask w data row 0 (by decide) (by decide), and_iff_left operand, and_iff_left_of_imp noIndex]

end Sys2Proof

namespace Sys2Proof.Machine

/-- Settles O5: each row is selected by the bits its index leaves free, and the fields put the word together again. -/
theorem microOperationMap : Obligations.MicroOperationMap := by
  refine ⟨fun w data => ⟨fun p b => ?putb, fun p => ?mark, fun p => ?zero, ?len, fun i => ?load, fun i => ?exp, ?initv,
    fun t => ?rnd, ?fold⟩, fun w => ?word⟩
  case putb => exact (decode_uop_ok_iff_highMask w data rfl 6 (by decide) p.isLt).trans and_assoc
  case mark => exact (decode_uop_ok_iff_highMask w data rfl 6 (by decide) p.isLt).trans (and_iff_left trivial)
  case zero => exact (decode_uop_ok_iff_highMask w data rfl 6 (by decide) p.isLt).trans (and_iff_left trivial)
  case len => exact decode_uop_ok_iff_fullMask w data (i := .padLen) rfl trivial
  case load => exact (decode_uop_ok_iff_highMask w data rfl 4 (by decide) i.isLt).trans (and_iff_left trivial)
  case exp =>
    refine (decode_uop_ok_iff_highMask w data rfl 7 (by decide) (by omega)).trans ⟨?_, ?_⟩
    · rintro ⟨⟨selected, idx⟩, low⟩
      exact ⟨selected, low.trans_eq idx.symm, idx⟩
    · rintro ⟨selected, low, idx⟩
      exact ⟨⟨selected, idx⟩, low.trans_eq idx⟩
  case initv => exact decode_uop_ok_iff_fullMask w data (i := .cmpInitv) rfl trivial
  case rnd => exact (decode_uop_ok_iff_highMask w data rfl 7 (by decide) (by omega)).trans (and_iff_left trivial)
  case fold => exact decode_uop_ok_iff_fullMask w data (i := .cmpFold) rfl trivial
  case word =>
    rw [← uopUnit_eq, ← uopOp_eq, ← uopIdx_eq]
    exact toNat_eq_uop_fields w

end Sys2Proof.Machine
end

section
/-! The response to a command (30_encoding.md R76, R78): its word, its contents, and one for each command, in order. -/

namespace Sys2Proof.Machine

/-! ## The response word -/

/-- The data stands in bits 31:0. -/
theorem Response.word_data (r : Response) : r.word.extractLsb' 0 32 = r.data :=
  BitVec.extractLsb'_append_eq_right

/-- The code stands in bits 35:32. -/
theorem Response.word_code (r : Response) : r.word.toNat / 2 ^ 32 = r.code.bits.toNat := by
  have small : r.data.toNat < 2 ^ 32 := r.data.isLt
  rw [Response.word, BitVec.toNat_append, ← Nat.shiftLeft_add_eq_or_of_lt small, Nat.shiftLeft_eq]
  omega

theorem decode_read_word (i : Fin 5) : decode (.cmd (BitVec.ofNat 16 (0x0400 + i.val))) = .ok (.read i) := by
  decide +revert

/-! ## What a command is answered -/

/-- What the response `r` to the command word `w`, taken in the state `s`, carries (30_encoding.md R78). -/
structure ResponseTo (s : State) (w : CmdWord) (r : Response) : Prop where
  rejected : r.code ≠ .ok → r.data = 0
  noData : r.code = .ok → cmdOp w ≤ 3 → r.data = 0
  digest : ∀ i : Fin 5, r.code = .ok → decode (.cmd w) = .ok (.read i) → r.data = s.h[i.val]
  status : decode (.cmd w) = .ok .stat → r.data = statWord s.phase

/-- A command runs to its end and leaves its one response; the host's later events and the responses already taken stay as
they are. -/
theorem exec_answers {w : CmdWord} {i : Instr} (legal : decode (.cmd w) = .ok i) (s : State) :
    ∃ (t : State) (r : Response), exec i s = .next (t.giveRsp r) ∧
      t.uop = s.uop ∧ t.inbox = s.inbox ∧ t.rsps = s.rsps ∧ ResponseTo s w r := by
  obtain ⟨t, r, ran, rsps, inbox, uop, -, refusal, acceptance⟩ := exec_command legal s
  refine ⟨t, r, ran, uop, inbox, rsps, ?_⟩
  cases admitted : admits s.phase i with
  | false =>
    obtain ⟨rfl, -⟩ := refusal admitted
    refine ⟨fun _ => rfl, nofun, nofun, fun stat => ?_⟩
    obtain rfl : i = .stat := Except.ok.inj (legal.symm.trans stat)
    cases phase : s.phase <;> simp [phase, admits] at admitted
  | true =>
    rcases acceptance admitted with ⟨code, -, noData, digest, status⟩ | ⟨rfl, -, ⟨b, rfl⟩, -⟩
    · exact ⟨fun rejected => absurd code rejected, fun _ => noData,
        fun k _ read => digest k (Except.ok.inj (legal.symm.trans read)),
        fun stat => status (Except.ok.inj (legal.symm.trans stat))⟩
    · exact ⟨fun _ => rfl, nofun, nofun, fun stat => nomatch legal.symm.trans stat⟩

/-- The same of the step that takes a command word, legal or not. -/
theorem step_answers {s : State} {w : CmdWord} {rest : List HostEvent} (lines : s.uop = none) (free : s.pending = none)
    (offered : s.inbox = .command w :: rest) :
    ∃ (t : State) (r : Response), step s = .next (t.giveRsp r) ∧
      t.uop = none ∧ t.inbox = rest ∧ t.rsps = s.rsps ∧ ResponseTo s w r := by
  rcases step_command s w rest lines free offered with ⟨illegal, answer⟩ | ⟨i, -, legal, answer⟩
  · have names : decode (.cmd w) = .error .illegalCmd := (illegalWord_iff w).1 illegal
    exact ⟨s.setInbox rest, ⟨.illegalCmd, 0⟩, answer, by simpa using lines, by simp, by simp, fun _ => rfl, nofun, nofun,
      fun stat => nomatch names.symm.trans stat⟩
  · obtain ⟨t, r, ran, uop, inbox, rsps, contents⟩ := exec_answers legal (s.setInbox rest)
    refine ⟨t, r, answer.trans ran, ?_, ?_, ?_, ?_⟩
    · simpa [lines] using uop
    · simpa using inbox
    · simpa using rsps
    · exact ⟨contents.rejected, contents.noData, contents.digest, contents.status⟩

/-- Settles O40: the word is the code above the data, and the data is what `step_answers` says. -/
theorem responseWordContents : Obligations.ResponseWordContents := by
  intro s w rest lines free offered
  obtain ⟨t, r, answer, -, -, rsps, contents⟩ := step_answers lines free offered
  refine ⟨t.giveRsp r, r, answer, by simp, by simpa using rsps, r.word_data, ?_, ?_, ?_, contents.noData, contents.rejected⟩
  · rw [r.word_code]
    cases r.code <;> rfl
  · rintro i accepted rfl
    exact contents.digest i accepted (decode_read_word i)
  · rintro rfl
    rw [contents.status decode_stat_word]
    cases s.phase <;> rfl

/-! ## One response for each command, in order -/

/-- After `k` of the words `ws` and twice as many steps from `s`: exactly the first `k` are gone and answered, with the first
`k` of the responses `rs`, and the next step performs word `k` and gives response `k`. -/
def AnsweredUpTo (ws : List CmdWord) (rs : List Response) (rest : List HostEvent) (s : State) (k : Nat) : Prop :=
  ∃ u, run (2 * k) s = .next u ∧ u.inbox = exchange (ws.drop k) ++ rest ∧
    u.uop = none ∧ u.pending = none ∧ u.rsps = s.rsps ++ rs.take k ∧
    ∀ hk : k < ws.length, ∃ v, step u = .next v ∧ v.uop = none ∧ v.pending = rs[k]? ∧ v.rsps = u.rsps ∧
      v.inbox = .take :: (exchange (ws.drop (k + 1)) ++ rest) ∧
      ∀ i : Instr, decode (.cmd ws[k]) = .ok i →
        step u = exec i (u.setInbox (.take :: (exchange (ws.drop (k + 1)) ++ rest)))

/-- A command and the host taking its response: two steps to a state as ready as the first, with that one response more. -/
theorem exchange_step {s : State} {w : CmdWord} {rest : List HostEvent} (lines : s.uop = none) (free : s.pending = none)
    (offered : s.inbox = .command w :: .take :: rest) :
    ∃ v r u, step s = .next v ∧ v.uop = none ∧ v.pending = some r ∧ v.rsps = s.rsps ∧ v.inbox = .take :: rest ∧
      step v = .next u ∧ u.uop = none ∧ u.pending = none ∧ u.inbox = rest ∧ u.rsps = s.rsps ++ [r] := by
  obtain ⟨t, r, answer, uop, inbox, rsps, -⟩ := step_answers lines free offered
  exact ⟨t.giveRsp r, r, (t.giveRsp r).takeRsp.setInbox rest, answer, by simpa using uop, by simp, by simpa using rsps,
    by simpa using inbox, step_take _ rest (by simpa using uop) (by simpa using inbox), by simpa using uop, by simp, by simp,
    by simp [rsps]⟩

/-- The step that takes a legal command word is that command. -/
theorem step_eq_exec {s : State} {w : CmdWord} {rest : List HostEvent} {i : Instr} (lines : s.uop = none)
    (free : s.pending = none) (offered : s.inbox = .command w :: rest) (legal : decode (.cmd w) = .ok i) :
    step s = exec i (s.setInbox rest) := by
  rcases step_command s w rest lines free offered with ⟨illegal, -⟩ | ⟨j, -, reads, answer⟩
  · exact nomatch legal.symm.trans ((illegalWord_iff w).1 illegal)
  · obtain rfl : i = j := Except.ok.inj (legal.symm.trans reads)
    exact answer

/-- Every command word of an exchange is answered at its turn, whatever the host does after the exchange. -/
theorem exchanges_answered (ws : List CmdWord) (rest : List HostEvent) (s : State) (lines : s.uop = none)
    (free : s.pending = none) (offered : s.inbox = exchange ws ++ rest) :
    ∃ rs : List Response, rs.length = ws.length ∧ ∀ k ≤ ws.length, AnsweredUpTo ws rs rest s k := by
  induction ws generalizing s with
  | nil =>
    refine ⟨[], rfl, fun k hk => ?_⟩
    obtain rfl : k = 0 := Nat.le_zero.1 hk
    exact ⟨s, rfl, offered, lines, free, by simp, nofun⟩
  | cons w ws ih =>
    have presented : s.inbox = .command w :: .take :: (exchange ws ++ rest) := offered
    obtain ⟨v, r, u, answer, vUop, vPending, vRsps, vInbox, taken, uUop, uPending, uInbox, uRsps⟩ :=
      exchange_step lines free presented
    obtain ⟨rs, length, later⟩ := ih u uUop uPending uInbox
    refine ⟨r :: rs, by simp [length], fun k hk => ?_⟩
    cases k with
    | zero =>
      exact ⟨s, rfl, offered, lines, free, by simp, fun _ => ⟨v, answer, vUop, vPending, vRsps, vInbox,
        fun i legal => step_eq_exec lines free presented legal⟩⟩
    | succ k =>
      obtain ⟨u', steps, inbox, uop, pending, rsps, next⟩ := later k (Nat.le_of_succ_le_succ hk)
      refine ⟨u', ?_, inbox, uop, pending, ?_, fun hk' => next (Nat.lt_of_succ_lt_succ hk')⟩
      · rw [Nat.mul_succ, run_succ _ answer, run_succ _ taken, steps]
      · rw [rsps, uRsps, List.take_succ_cons, List.append_assoc, List.singleton_append]

/-- A step does nothing while a response stands on the channel and the host only presents commands. -/
theorem step_waits_for_take {s : State} {r : Response} (ws : List CmdWord) (lines : s.uop = none)
    (standsThere : s.pending = some r) (offered : s.inbox = ws.map .command) : step s = .next s := by
  have wait : standing s.inbox = .wait := by rw [offered, standing_commands_wait]
  rcases step_standing lines standsThere with ⟨-, waits⟩ | ⟨l, taken, -⟩ | ⟨l, reset, -⟩
  · exact waits
  · exact nomatch wait.symm.trans taken
  · exact nomatch wait.symm.trans reset

/-- Settles O39: by induction on the words, each of them one exchange. -/
theorem oneResponsePerCommandInOrder : Obligations.OneResponsePerCommandInOrder :=
  ⟨fun ws s rest lines free offered => exchanges_answered ws rest s lines free offered,
    fun ws _ _ lines standsThere offered => step_waits_for_take ws lines standsThere offered⟩

end Sys2Proof.Machine
end

section
/-! The padded stream and its blocks as a function of the message (40_padder.md R100). -/

namespace Sys2Proof.Machine

/-! ## The parts of the stream -/

theorem zeroCount_le (l : Nat) : zeroCount l ≤ 63 := by
  unfold zeroCount
  omega

/-- With the marker and the zeros, eight bytes are left of the last block. -/
theorem zeroCount_fills (l : Nat) : (l + 1 + zeroCount l) % 64 = 56 := by
  unfold zeroCount
  omega

/-- Fewer zeros do not do it. -/
theorem zeroCount_least {l z : Nat} (fills : (l + 1 + z) % 64 = 56) : zeroCount l ≤ z := by
  have bound := zeroCount_le l
  have least := zeroCount_fills l
  omega

/-- Below the bound of `D6` the bit length fits into its field. -/
theorem bitLength_toNat {l : Nat} (short : l < 2 ^ 61) : (bitLength l).toNat = l * 8 := by
  rw [bitLength, BitVec.toNat_ofNat]
  omega

/-! ## The blocks -/

/-- The stream is whole blocks, as many as `pad` takes. -/
theorem padBytes_length_blockCount (m : List Byte) : (padBytes m).length = 64 * blockCount m.length := by
  have bound := zeroCount_le m.length
  have fills := zeroCount_fills m.length
  rw [padBytes_length, blockCount]
  omega

theorem pad_length (m : List Byte) : (pad m).length = blockCount m.length := by
  simp [pad]

theorem pad_get (m : List Byte) (k : Nat) (hk : k < (pad m).length) : (pad m)[k] = blockAt (padBytes m) k := by
  simp [pad]

/-- Word `i` of a block is packed from the four bytes at `4i`, the first the most significant. -/
theorem blockAt_get (stream : List Byte) (k : Nat) (i : Fin 16) :
    (blockAt stream k)[i.val] = be32 (stream.getD (64 * k + 4 * i.val) 0) (stream.getD (64 * k + 4 * i.val + 1) 0)
      (stream.getD (64 * k + 4 * i.val + 2) 0) (stream.getD (64 * k + 4 * i.val + 3) 0) := by
  simp [blockAt, blockOfBytes, Nat.add_assoc]

/-- Settles O46: the number of zeros is `zeroCount` and the field is the bit length, which fits. -/
theorem paddedStreamContract : Obligations.PaddedStreamContract := fun m short =>
  ⟨zeroCount m.length, be64 (bitLength m.length), zeroCount_le _, zeroCount_fills _, fun _ => zeroCount_least, rfl,
    be64_length _, (be64_value _).trans (bitLength_toNat short), padBytes_length_blockCount m, pad_length m,
    fun k hk i => by rw [pad_get m k hk, blockAt_get]⟩

end Sys2Proof.Machine
end

section
/-! The micro-operation `WEX.LOAD` and the schedule that the eighty schedule micro-operations leave (41_schedule.md R120 to
R122). -/

namespace Sys2Proof.Machine

/-! ## `WEX.LOAD` -/

theorem decode_wexLoad_word (i : Fin 16) : decode (.uop (BitVec.ofNat 11 (0x200 + i.val)) 0) = .ok (.wexLoad i) := by
  decide +revert

theorem exec_wexLoad (i : Fin 16) (s : State) : exec (.wexLoad i) s = .next (s.setW (unitLoad i s).w) := rfl

theorem unitLoad_w_self (i : Fin 16) (s : State) : (unitLoad i s).w[i.val] = readWord s.blk (4 * i.val) := by
  simp [unitLoad]

theorem unitLoad_w_ne {i : Fin 16} {j : Fin 80} (ne : j.val ≠ i.val) (s : State) : (unitLoad i s).w[j.val] = s.w[j.val] :=
  Vector.getElem_set_ne (by omega) j.isLt ne.symm

/-- A load reads only `BLK`, which no load writes, and two loads of different words write different entries. -/
theorem unitLoad_comm (i k : Fin 16) (s : State) : unitLoad k (unitLoad i s) = unitLoad i (unitLoad k s) := by
  rcases eq_or_ne i k with rfl | ne
  · rfl
  · exact congrArg s.setW (Vector.set_comm _ _ (Fin.val_ne_of_ne ne))

/-- Settles O13: the word loaded is the one at `4i`, by its bytes; the loads commute. -/
theorem scheduleLoad : Obligations.ScheduleLoad := fun s i =>
  ⟨decode_wexLoad_word i, (unitLoad i s).w, exec_wexLoad i s,
    (congrArg BitVec.toNat (unitLoad_w_self i s)).trans (readWord_toNat s.blk _),
    fun _ ne => unitLoad_w_ne ne s, fun k => unitLoad_comm i k s⟩

/-! ## The whole schedule -/

theorem State.setW_setW (s : State) (w w' : Vector Word 80) : (s.setW w).setW w' = s.setW w' := (rfl)

/-- The sixteen loads leave the block in the first sixteen entries and change `W` alone. -/
theorem issue_loadOps (s : State) :
    ∃ w, issue loadOps s = s.setW w ∧ ∀ i (h : i < 16), w[i] = (blkWords s.blk)[i] := by
  obtain ⟨w, loads, first⟩ := issue_load s 16 le_rfl
  exact ⟨w, loads, fun i h => (first i h).trans (blkWords_get s.blk ⟨i, h⟩).symm⟩

/-- The sixty-four expansions keep the first sixteen entries, make all others obey the recurrence, and change `W` alone. -/
theorem issue_expOps (s : State) :
    ∃ w, issue expOps s = s.setW w ∧ (∀ i (h : i < 16), w[i] = s.w[i]) ∧
      ∀ i (h : 16 ≤ i) (h' : i < 80), w[i] = rotl (w[i - 3] ^^^ w[i - 8] ^^^ w[i - 14] ^^^ w[i - 16]) 1 (by decide) :=
  issue_exp s 64 le_rfl

/-- The schedule left is the expansion of the block, since the recurrence has one solution. -/
theorem issue_schedule (s : State) : issue (loadOps ++ expOps) s = s.setW (expand (blkWords s.blk)) := by
  obtain ⟨loaded, loads, first⟩ := issue_loadOps s
  obtain ⟨w, expansions, kept, recurrence⟩ := issue_expOps (s.setW loaded)
  have expanded : w = expand (blkWords s.blk) :=
    Vector.ext (expand_unique _ w (fun i h => (kept i h).trans (first i h)) recurrence)
  rw [issue_append, loads, expansions, State.setW_setW, expanded]

/-- Settles O15: `expand` by its laws, and the machine's schedule as the solution of the same recurrence. -/
theorem scheduleIsTheExpansionOfTheBlock : Obligations.ScheduleIsTheExpansionOfTheBlock :=
  ⟨fun b i => expand_lo b i.val i.isLt, fun b i low => expand_hi b i.val low i.isLt, issue_schedule⟩

end Sys2Proof.Machine
end

section
/-! The round function and the round constant (42_compress.md R130, R131): the quartile selects both, and each expression of
the round function acts on every bit position alone. -/

namespace Sys2Proof.Machine

theorem quartile_eq {t : Fin 80} {q : Fin 4} (h : t.val / 20 = q.val) : quartile t = q := Fin.ext h

/-! ## The truth tables of the three expressions -/

theorem choose_getLsbD (b c d : Word) (k : Nat) :
    ((b &&& c) ||| (~~~b &&& d)).getLsbD k = if b.getLsbD k then c.getLsbD k else d.getLsbD k := by
  rw [BitVec.getLsbD_or, BitVec.getLsbD_and, BitVec.getLsbD_and, BitVec.getLsbD_not]
  by_cases inside : k < 32
  · cases b.getLsbD k <;> simp [inside]
  · simp [BitVec.getLsbD_of_ge _ k (not_lt.1 inside)]

theorem parity_getLsbD (b c d : Word) (k : Nat) :
    (b ^^^ c ^^^ d).getLsbD k = ((b.getLsbD k != c.getLsbD k) != d.getLsbD k) := by
  rw [BitVec.getLsbD_xor, BitVec.getLsbD_xor]

theorem majority_getLsbD (b c d : Word) (k : Nat) :
    ((b &&& c) ||| (b &&& d) ||| (c &&& d)).getLsbD k =
      decide (2 ≤ (b.getLsbD k).toNat + (c.getLsbD k).toNat + (d.getLsbD k).toNat) := by
  simp only [BitVec.getLsbD_or, BitVec.getLsbD_and]
  generalize b.getLsbD k = x, c.getLsbD k = y, d.getLsbD k = z
  decide +revert

/-! ## The expression and the constant of each quartile -/

section
variable {t : Fin 80} (b c d : Word)

theorem roundF_choose (h : quartile t = 0) : roundF t b c d = (b &&& c) ||| (~~~b &&& d) := by
  simp only [roundF, h]

theorem roundF_parity (h : quartile t = 1 ∨ quartile t = 3) : roundF t b c d = b ^^^ c ^^^ d := by
  rcases h with h | h <;> simp only [roundF, h]

theorem roundF_majority (h : quartile t = 2) : roundF t b c d = (b &&& c) ||| (b &&& d) ||| (c &&& d) := by
  simp only [roundF, h]

theorem roundConstant_of_quartile {q : Fin 4} (h : quartile t = q) : roundConstant t = roundConstants[q.val] := by
  simp only [roundConstant, h]

end

/-- Settles O9: the quartile of the round selects the expression and the constant, the expression has its truth table. -/
theorem roundFunctionAndConstantByQuartile : Obligations.RoundFunctionAndConstantByQuartile := by
  refine fun t b c d => ⟨fun hi => ?choose, fun lo hi => ?parity, fun lo hi => ?majority, fun lo => ?parityLast⟩
  case choose =>
    have q : quartile t = 0 := quartile_eq (by omega)
    rw [roundF_choose b c d q]
    exact ⟨rfl, roundConstant_of_quartile q, choose_getLsbD b c d⟩
  case parity =>
    have q : quartile t = 1 := quartile_eq (by omega)
    rw [roundF_parity b c d (.inl q)]
    exact ⟨rfl, roundConstant_of_quartile q, parity_getLsbD b c d⟩
  case majority =>
    have q : quartile t = 2 := quartile_eq (by omega)
    rw [roundF_majority b c d q]
    exact ⟨rfl, roundConstant_of_quartile q, majority_getLsbD b c d⟩
  case parityLast =>
    have q : quartile t = 3 := quartile_eq (by omega)
    rw [roundF_parity b c d (.inr q)]
    exact ⟨rfl, roundConstant_of_quartile q, parity_getLsbD b c d⟩

end Sys2Proof.Machine
end

section
/-! The micro-operation `CMP.FOLD` and the whole of `SEQ.BLOCK` (42_compress.md R135, R136). -/

namespace Sys2Proof.Machine

/-! ## `CMP.FOLD` -/

theorem decode_cmpFold_word : decode (.uop 0x500 0) = .ok .cmpFold := by decide

theorem exec_cmpFold (s : State) :
    exec .cmpFold s = .next (s.setH (Vars.foldInto ⟨s.a, s.b, s.c, s.d, s.e⟩ s.h)) := (rfl)

/-- `CMP.FOLD` alone writes the accumulator. -/
theorem perform_h_of_ne_fold {u : MicroOp} (ne : u ≠ .fold) (s : State) : (u.perform s).h = s.h := by
  cases u with
  | fold => exact absurd rfl ne
  | putb | mark | zero | len => exact s.setBlk_h _
  | load | exp => exact s.setW_h _
  | initv | rnd => exact s.setVars_h _ _ _ _ _

/-- Settles O19: the accumulator left is the fold-back, one `add32` for each word. -/
theorem foldBackIntoTheAccumulator : Obligations.FoldBackIntoTheAccumulator := fun s =>
  ⟨decode_cmpFold_word, Vars.foldInto ⟨s.a, s.b, s.c, s.d, s.e⟩ s.h, exec_cmpFold s,
    add32_toNat _ _, add32_toNat _ _, add32_toNat _ _, add32_toNat _ _, add32_toNat _ _,
    fun _ ne => perform_h_of_ne_fold ne s⟩

/-! ## `SEQ.BLOCK` -/

/-- The compression part of `SEQ.BLOCK`: whatever schedule stands in `W`, the working variables end as its rounds leave them
and are folded into the accumulator. -/
theorem issue_compression (s : State) :
    let v := allRounds s.w (Vars.ofAccumulator s.h)
    issue ([.initv] ++ rndOps ++ [.fold]) s = (s.setVars v.a v.b v.c v.d v.e).setH (v.foldInto s.h) := by
  rw [issue_append, issue_append, issue_initv, issue_rndOps, issue_fold]

/-- Settles O20: the schedule part leaves `expand(BLKW)` in `W` and the accumulator as it was, the compression part follows. -/
theorem blockSequenceCompresses : Obligations.BlockSequenceCompresses := by
  intro s
  have parts : seqBlock = (loadOps ++ expOps) ++ ([.initv] ++ rndOps ++ [.fold]) := by
    simp only [seqBlock, List.append_assoc]
  rw [parts, issue_append, issue_schedule, issue_compression, State.setW_w, State.setW_h, compress_eq]

end Sys2Proof.Machine
end

section
/-! The driver's commands `INIT` and `READ` and the table of phase transitions (43_driver.md R150 to R152). -/

namespace Sys2Proof.Machine

/-! ## `INIT` -/

theorem decode_init_word : decode (.cmd 0x0100) = .ok .init := by decide

theorem exec_init_of_open {s : State} (isOpen : s.phase = .absorb) : exec .init s = .next (s.giveRsp ⟨.badPhase, 0⟩) :=
  if_pos isOpen

theorem exec_init_of_not_open {s : State} (closed : s.phase ≠ .absorb) :
    exec .init s = .next ((openMessage s).giveRsp ⟨.ok, 0⟩) :=
  if_neg closed

/-- Settles O25: the phase decides, and `openMessage` writes no other register. -/
theorem initOpensAMessage : Obligations.InitOpensAMessage := fun _ =>
  ⟨decode_init_word, exec_init_of_open, exec_init_of_not_open⟩

/-! ## `READ` -/

/-- An operand byte added to a word with an empty operand field leaves the operation and becomes the operand. -/
theorem cmd_fields_add_operand {op : CmdWord} (empty : cmdX op = 0) (x : Byte) :
    cmdOp (op + x.setWidth 16) = cmdOp op ∧ cmdX (op + x.setWidth 16) = x.toNat := by
  have fits : (op + x.setWidth 16).toNat = op.toNat + x.toNat := by
    rw [BitVec.toNat_add, BitVec.toNat_setWidth]
    unfold cmdX at empty
    omega
  unfold cmdX at empty
  rw [cmdOp, cmdX, cmdOp, fits]
  omega

theorem exec_read_of_not_done {s : State} (notDone : s.phase ≠ .done) (i : Fin 5) :
    exec (.read i) s = .next (s.giveRsp ⟨.badPhase, 0⟩) :=
  if_pos notDone

theorem exec_read_of_done {s : State} (done : s.phase = .done) (i : Fin 5) :
    exec (.read i) s = .next (s.giveRsp ⟨.ok, s.h[i.val]⟩) :=
  if_neg (not_not.2 done)

/-- An index of 5 or more selects no row of the command map. -/
theorem decode_read_word_out_of_range {x : Byte} (large : 5 ≤ x.toNat) :
    decode (.cmd (0x0400 + x.setWidth 16)) = .error .illegalCmd := by
  obtain ⟨op, operand⟩ := cmd_fields_add_operand (op := 0x0400) rfl x
  rw [cmdOp_eq] at op
  rw [cmdX_eq] at operand
  exact (illegalWord_iff _).1 (.inr (.inr ⟨op, large.trans_eq operand.symm⟩))

/-- Settles O28: the phase decides what is answered, and the decoder reads the index. -/
theorem readAnswersTheDigestWord : Obligations.ReadAnswersTheDigestWord := fun _ i =>
  ⟨decode_read_word i, fun notDone => exec_read_of_not_done notDone i, fun done => exec_read_of_done done i,
    fun _ => decode_read_word_out_of_range⟩

/-! ## The table of phase transitions -/

/-- The step that takes a word that names no command answers it and changes nothing else. -/
theorem step_of_illegal {s : State} {w : CmdWord} {rest : List HostEvent} {e : DecodeError} (lines : s.uop = none)
    (free : s.pending = none) (offered : s.inbox = .command w :: rest) (names : decode (.cmd w) = .error e) :
    step s = .next ((s.setInbox rest).giveRsp ⟨.illegalCmd, 0⟩) := by
  rcases step_command s w rest lines free offered with ⟨-, answer⟩ | ⟨i, -, legal, -⟩
  · exact answer
  · exact nomatch names.symm.trans legal

/-- Settles O38: a legal word is its command, which `exec_command` describes; an illegal word and a reset are steps of their
own. -/
theorem phaseTransitionTable : Obligations.PhaseTransitionTable := by
  refine ⟨fun s w rest i lines free offered legal => ?command, fun s w rest e lines free offered names => ?illegal,
    fun s rest lines offered => ?reset⟩
  case command =>
    obtain ⟨t, r, ran, rsps, -, -, phase, refusal, acceptance⟩ := exec_command legal (s.setInbox rest)
    refine ⟨t.giveRsp r, r, (step_eq_exec lines free offered legal).trans ran, State.giveRsp_pending t r, rsps, phase,
      fun refused => ?_, fun admitted => ?_⟩
    · obtain ⟨rfl, -⟩ := refusal refused
      rfl
    · rcases acceptance admitted with ⟨code, -⟩ | ⟨rfl, -, push, -⟩
      · exact .inl code
      · exact .inr ⟨rfl, push⟩
  case illegal =>
    exact ⟨_, _, step_of_illegal lines free offered names, State.giveRsp_pending _ _, rfl, rfl, rfl⟩
  case reset =>
    exact ⟨_, step_reset s rest lines offered, takeReset_phase _⟩

end Sys2Proof.Machine
end

section
/-! What an accepted `PUSH` and an accepted `FINAL` leave in the registers that the next command reads: `BLK` and `H`
(40_padder.md R101, R102). -/

namespace Sys2Proof.Machine

theorem seqBlock_keepsBlk : seqBlock.all MicroOp.keepsBlk = true := by decide

/-! ## One block -/

theorem issue_seqBlock_h (s : State) : (issue seqBlock s).h = compress s.h (blkWords s.blk) := by
  have sequence := blockSequenceCompresses s
  simp only at sequence
  rw [sequence, State.setH_h]

/-! ## `PUSH` -/

theorem pushByte_blk (b : Byte) (s : State) : (pushByte b s).blk = writeByte s.blk (pos s.len).val b := by
  have keeps : (pushBlockOps (pos s.len)).all MicroOp.keepsBlk = true := by
    unfold pushBlockOps
    split
    · exact seqBlock_keepsBlk
    · rfl
  rw [pushByte, issue_keepsBlk _ keeps, State.setLen_blk]
  exact perform_putb_blk (pos s.len) b s

/-- The byte that fills the block has it compressed; no other byte touches the accumulator. -/
theorem pushByte_h (b : Byte) (s : State) :
    (pushByte b s).h =
      if (pos s.len).val = 63 then compress s.h (blkWords (writeByte s.blk (pos s.len).val b)) else s.h := by
  simp only [pushByte, pushBlockOps, blockFull_iff]
  split
  · rw [issue_seqBlock_h]
    rfl
  · rfl

/-! ## `FINAL` -/

theorem finalOps_oneBlock {p : Fin 64} (room : p.val ≤ 55) :
    finalOps p = [.mark p] ++ zeroOps (p.val + 1) 55 ++ [.len] ++ seqBlock := by
  rw [finalOps, if_neg (by rw [noRoomForLength_iff]; omega)]

theorem finalOps_twoBlocks {p : Fin 64} (full : 56 ≤ p.val) :
    finalOps p = ([.mark p] ++ zeroOps (p.val + 1) 63) ++ (seqBlock ++ ((zeroOps 0 55 ++ [.len]) ++ seqBlock)) := by
  rw [finalOps, if_pos ((noRoomForLength_iff p).2 full)]
  simp only [List.append_assoc]

theorem finishMessage_h_oneBlock {s : State} (wf : memWf s.blk = true) (room : (pos s.len).val ≤ 55) :
    (finishMessage s).h =
      compress s.h (blockOfBytes (withLengthField s.len (tailByte s.blk (pos s.len).val))) := by
  obtain ⟨m, pads, -, bytes⟩ := issue_lastPadding s wf (pos s.len)
  rw [finishMessage, State.setPhase_h, finalOps_oneBlock room, issue_append, pads, issue_seqBlock_h, State.setBlk_h,
    State.setBlk_blk, blkWords_eq bytes]

theorem finishMessage_h_twoBlocks {s : State} (wf : memWf s.blk = true) (full : 56 ≤ (pos s.len).val) :
    (finishMessage s).h =
      compress (compress s.h (blockOfBytes (tailByte s.blk (pos s.len).val)))
        (blockOfBytes (withLengthField s.len fun _ => 0)) := by
  obtain ⟨m, pads, mWf, bytes⟩ := issue_firstPadding s wf (pos s.len)
  obtain ⟨m', pads', -, bytes'⟩ := issue_lengthOnly (issue seqBlock (s.setBlk m)) (issue_wf seqBlock mWf)
  rw [issue_len, State.setBlk_len] at bytes'
  rw [finishMessage, State.setPhase_h, finalOps_twoBlocks full, issue_append, pads, issue_append, issue_append, pads',
    issue_seqBlock_h, State.setBlk_h, State.setBlk_blk, blkWords_eq bytes', issue_seqBlock_h, State.setBlk_h,
    State.setBlk_blk, blkWords_eq bytes]

end Sys2Proof.Machine
end

section
/-! The reference function `sha1` block by block: the whole blocks of the message, then the one or two blocks that hold its
tail and the padding (40_padder.md R100, 43_driver.md R155). -/

namespace Sys2Proof.Machine

/-- The whole blocks of a message, in order: those that `PUSH` has compressed (`Absorbed`), and the first blocks of
`pad m`. -/
def wholeBlocks (m : List Byte) : List Block := (List.range (m.length / 64)).map (blockAt m)

/-- `BLK` begins with the bytes of the message that fill no whole block. -/
def HoldsTail (m : List Byte) (blk : Mem) : Prop :=
  ∀ a < m.length % 64, readByte blk a = m.getD (64 * (m.length / 64) + a) 0

/-! ## The whole blocks -/

/-- The whole blocks of a message are blocks of every stream that begins with it. -/
theorem map_blockAt_append (m rest : List Byte) :
    (List.range (m.length / 64)).map (blockAt (m ++ rest)) = wholeBlocks m := by
  refine List.map_congr_left fun k hk => blockOfBytes_congr fun j hj => ?_
  have inside : 64 * k + j < m.length := by
    rw [List.mem_range] at hk
    omega
  exact List.getD_append _ _ _ _ inside

/-- One more byte adds a block exactly when it fills one. -/
theorem wholeBlocks_append_byte (m : List Byte) (b : Byte) :
    wholeBlocks (m ++ [b]) =
      if m.length % 64 = 63 then wholeBlocks m ++ [blockAt (m ++ [b]) (m.length / 64)] else wholeBlocks m := by
  rw [wholeBlocks, List.length_append, List.length_singleton]
  split
  · rw [show (m.length + 1) / 64 = m.length / 64 + 1 by omega, List.range_succ, List.map_append, map_blockAt_append,
      List.map_singleton]
  · rw [show (m.length + 1) / 64 = m.length / 64 by omega, map_blockAt_append]

theorem padBytes_eq_append (m : List Byte) :
    padBytes m = m ++ ([0x80] ++ List.replicate (zeroCount m.length) 0 ++ be64 (bitLength m.length)) := by
  simp only [padBytes, List.append_assoc]

theorem pad_oneBlock {m : List Byte} (room : m.length % 64 ≤ 55) :
    pad m = wholeBlocks m ++ [blockAt (padBytes m) (m.length / 64)] := by
  rw [pad, blockCount, show (m.length + 8) / 64 + 1 = m.length / 64 + 1 by omega, List.range_succ, List.map_append,
    List.map_singleton, ← map_blockAt_append, ← padBytes_eq_append]

theorem pad_twoBlocks {m : List Byte} (full : 56 ≤ m.length % 64) :
    pad m = wholeBlocks m ++ [blockAt (padBytes m) (m.length / 64), blockAt (padBytes m) (m.length / 64 + 1)] := by
  rw [pad, blockCount, show (m.length + 8) / 64 + 1 = m.length / 64 + 1 + 1 by omega, List.range_succ, List.range_succ,
    List.map_append, List.map_append, List.map_singleton, List.map_singleton, List.append_assoc, List.singleton_append,
    ← map_blockAt_append, ← padBytes_eq_append]

/-! ## The padding, byte by byte -/

/-- The zeros reach up to the length field. -/
theorem padBytes_getD_zero {m : List Byte} {i : Nat} (past : m.length < i) (before : i < m.length + 1 + zeroCount m.length) :
    (padBytes m).getD i 0 = 0 := by
  rw [padBytes_getD, if_neg (by omega), if_neg (by omega), if_pos before]

/-- The length field is the last eight bytes. -/
theorem padBytes_getD_field (m : List Byte) {k : Nat} (hk : k < 8) :
    (padBytes m).getD (m.length + 1 + zeroCount m.length + k) 0 = dwordByte (bitLength m.length) k := by
  rw [padBytes_getD, if_neg (by omega), if_neg (by omega), if_neg (by omega), if_pos (by omega), Nat.add_sub_cancel_left]

/-- From the last block boundary to the length field the stream is what `FINAL` puts around the tail in `BLK`. -/
theorem padBytes_getD_tail {m : List Byte} {blk : Mem} (tail : HoldsTail m blk) {j : Nat}
    (before : 64 * (m.length / 64) + j < m.length + 1 + zeroCount m.length) :
    (padBytes m).getD (64 * (m.length / 64) + j) 0 = tailByte blk (m.length % 64) j := by
  unfold tailByte
  split_ifs with message marker
  · rw [padBytes_getD, if_pos (by omega), tail j message]
  · rw [padBytes_getD, if_neg (by omega), if_pos (by omega)]
  · exact padBytes_getD_zero (by omega) before

/-! ## The closing blocks -/

theorem zeroCount_oneBlock {l : Nat} (room : l % 64 ≤ 55) : zeroCount l = 55 - l % 64 := by
  unfold zeroCount
  omega

theorem zeroCount_twoBlocks {l : Nat} (full : 56 ≤ l % 64) : zeroCount l = 119 - l % 64 := by
  unfold zeroCount
  omega

/-- With room for the length field, the block with the tail is the last. -/
theorem blockAt_padBytes_oneBlock {m : List Byte} {blk : Mem} (tail : HoldsTail m blk) (room : m.length % 64 ≤ 55) :
    blockAt (padBytes m) (m.length / 64) =
      blockOfBytes (withLengthField (bitLength m.length) (tailByte blk (m.length % 64))) := by
  have zeros := zeroCount_oneBlock room
  refine blockOfBytes_congr fun j hj => ?_
  unfold withLengthField
  split_ifs with text
  · exact padBytes_getD_tail tail (by omega)
  · rw [← padBytes_getD_field m (show j - 56 < 8 by omega)]
    congr 1
    omega

/-- Without that room, the block with the tail holds the marker and zeros only. -/
theorem blockAt_padBytes_firstOfTwo {m : List Byte} {blk : Mem} (tail : HoldsTail m blk) (full : 56 ≤ m.length % 64) :
    blockAt (padBytes m) (m.length / 64) = blockOfBytes (tailByte blk (m.length % 64)) := by
  have zeros := zeroCount_twoBlocks full
  exact blockOfBytes_congr fun j hj => padBytes_getD_tail tail (by omega)

/-- The last block is then zeros and the length field. -/
theorem blockAt_padBytes_lastOfTwo {m : List Byte} (full : 56 ≤ m.length % 64) :
    blockAt (padBytes m) (m.length / 64 + 1) = blockOfBytes (withLengthField (bitLength m.length) fun _ => 0) := by
  have zeros := zeroCount_twoBlocks full
  refine blockOfBytes_congr fun j hj => ?_
  unfold withLengthField
  split_ifs with text
  · exact padBytes_getD_zero (by omega) (by omega)
  · rw [← padBytes_getD_field m (show j - 56 < 8 by omega)]
    congr 1
    omega

end Sys2Proof.Machine
end

section
/-! A whole message: `INIT`, one `PUSH` for each byte, `FINAL`, with the response to each taken by the host
(43_driver.md R155). -/

namespace Sys2Proof.Machine

/-! ## The registers while a message is open -/

/-- The message open in `s` has been `m` so far: `H` holds its whole blocks compressed, `BLK` the bytes left over, `LEN` its
length in bits. -/
structure Absorbed (m : List Byte) (s : State) : Prop where
  phase : s.phase = .absorb
  wf : memWf s.blk = true
  len : s.len = bitLength m.length
  h : s.h = (wholeBlocks m).foldl compress iv
  tail : HoldsTail m s.blk

theorem pos_bitLength {l : Nat} (short : l < 2 ^ 61) : (pos (bitLength l)).val = l % 64 := by
  rw [pos_val, bitLength_toNat short]
  omega

theorem bitLength_succ (l : Nat) : bitLength (l + 1) = bitLength l + 8 := by
  rw [bitLength, bitLength, Nat.succ_mul, BitVec.ofNat_add]
  rfl

/-- Below the longest message the length is not yet the largest. -/
theorem bitLength_ne_max {l : Nat} (short : l + 1 < 2 ^ 61) : bitLength l ≠ 0xFFFFFFFFFFFFFFF8 := by
  intro full
  have largest : (0xFFFFFFFFFFFFFFF8 : Len).toNat = 2 ^ 64 - 8 := rfl
  rw [← full, bitLength_toNat (by omega)] at largest
  omega

theorem Absorbed.pos_len {m : List Byte} {s : State} (absorbed : Absorbed m s) (short : m.length < 2 ^ 61) :
    (pos s.len).val = m.length % 64 := by
  rw [absorbed.len, pos_bitLength short]

/-! The channels are not among these registers. -/

theorem Absorbed.setInbox {m : List Byte} {s : State} (absorbed : Absorbed m s) (todo : List HostEvent) :
    Absorbed m (s.setInbox todo) :=
  ⟨absorbed.phase, absorbed.wf, absorbed.len, absorbed.h, absorbed.tail⟩

theorem Absorbed.answered {m : List Byte} {s : State} (absorbed : Absorbed m s) (r : Response) :
    Absorbed m (s.giveRsp r).takeRsp :=
  ⟨absorbed.phase, absorbed.wf, absorbed.len, absorbed.h, absorbed.tail⟩

theorem absorbed_openMessage {s : State} (wf : memWf s.blk = true) : Absorbed [] (openMessage s) :=
  ⟨rfl, wf, rfl, rfl, nofun⟩

/-- With the next byte written behind the tail, `BLK` holds one byte more of the message. -/
theorem readByte_writeByte_tail {m : List Byte} {blk : Mem} (wf : memWf blk = true) (tail : HoldsTail m blk) (b : Byte)
    {a : Nat} (ha : a ≤ m.length % 64) :
    readByte (writeByte blk (m.length % 64) b) a = (m ++ [b]).getD (64 * (m.length / 64) + a) 0 := by
  rw [readByte_writeByte wf]
  split_ifs with new
  · rw [List.getD_append_right _ _ _ _ (by omega), show 64 * (m.length / 64) + a - m.length = 0 by omega]
    rfl
  · rw [tail a (by omega), List.getD_append _ _ _ _ (by omega)]

theorem holdsTail_append_byte {m : List Byte} {blk : Mem} (wf : memWf blk = true) (tail : HoldsTail m blk) (b : Byte) :
    HoldsTail (m ++ [b]) (writeByte blk (m.length % 64) b) := by
  intro a ha
  rw [List.length_append, List.length_singleton] at ha ⊢
  rw [show (m.length + 1) / 64 = m.length / 64 by omega]
  exact readByte_writeByte_tail wf tail b (by omega)

/-- The byte that fills the block makes it the next whole block of the message. -/
theorem blkWords_writeByte_full {m : List Byte} {blk : Mem} (wf : memWf blk = true) (tail : HoldsTail m blk) (b : Byte)
    (full : m.length % 64 = 63) :
    blkWords (writeByte blk (m.length % 64) b) = blockAt (m ++ [b]) (m.length / 64) :=
  blkWords_eq fun _ _ => readByte_writeByte_tail wf tail b (by omega)

theorem absorbed_pushByte {m : List Byte} {s : State} (absorbed : Absorbed m s) (short : m.length < 2 ^ 61) (b : Byte) :
    Absorbed (m ++ [b]) (pushByte b s) := by
  have p := absorbed.pos_len short
  refine ⟨(pushByte_phase b s).trans absorbed.phase, pushByte_wf b absorbed.wf, ?_, ?_, ?_⟩
  · rw [pushByte_len, absorbed.len, List.length_append, List.length_singleton, bitLength_succ]
  · rw [pushByte_h, p, wholeBlocks_append_byte]
    split_ifs with full
    · rw [blkWords_writeByte_full absorbed.wf absorbed.tail b full, absorbed.h, List.foldl_append, List.foldl_cons,
        List.foldl_nil]
    · exact absorbed.h
  · rw [pushByte_blk, p]
    exact holdsTail_append_byte absorbed.wf absorbed.tail b

/-- The last blocks that `FINAL` compresses are the last blocks of `pad m`. -/
theorem finishMessage_h_eq_sha1 {m : List Byte} {s : State} (absorbed : Absorbed m s) (short : m.length < 2 ^ 61) :
    (finishMessage s).h = sha1 m := by
  have p := absorbed.pos_len short
  rcases le_or_gt (m.length % 64) 55 with room | full
  · rw [finishMessage_h_oneBlock absorbed.wf (by omega), p, absorbed.h, absorbed.len, sha1, pad_oneBlock room,
      blockAt_padBytes_oneBlock absorbed.tail room, List.foldl_append, List.foldl_cons, List.foldl_nil]
  · rw [finishMessage_h_twoBlocks absorbed.wf (by omega), p, absorbed.h, absorbed.len, sha1, pad_twoBlocks full,
      blockAt_padBytes_firstOfTwo absorbed.tail full, blockAt_padBytes_lastOfTwo full, List.foldl_append, List.foldl_cons,
      List.foldl_cons, List.foldl_nil]

/-! ## The channels between two commands -/

/-- The block waits for a command: the host will do `todo` and has taken the responses `taken`. -/
structure Ready (todo : List HostEvent) (taken : List Response) (s : State) : Prop where
  lines : s.uop = none
  free : s.pending = none
  inbox : s.inbox = todo
  rsps : s.rsps = taken

/-- A command that leaves the response `r`, and the host taking it: two steps, after which the block waits again. -/
theorem run_exchange {s v : State} {w : CmdWord} {i : Instr} {r : Response} {todo : List HostEvent} {taken : List Response}
    (ready : Ready (.command w :: .take :: todo) taken s) (legal : decode (.cmd w) = .ok i)
    (ran : exec i (s.setInbox (.take :: todo)) = .next (v.giveRsp r)) :
    run 2 s = .next ((v.giveRsp r).takeRsp.setInbox todo) ∧
      Ready todo (taken ++ [r]) ((v.giveRsp r).takeRsp.setInbox todo) := by
  obtain ⟨t, q, ran', uop, inbox, rsps, -⟩ := exec_answers legal (s.setInbox (.take :: todo))
  have same : t.giveRsp q = v.giveRsp r := Host.Outcome.next.inj (ran'.symm.trans ran)
  have vUop : (v.giveRsp r).uop = none := by rw [← same]; exact uop.trans ready.lines
  have vInbox : (v.giveRsp r).inbox = .take :: todo := by rw [← same]; exact inbox
  have vRsps : (v.giveRsp r).rsps = taken := by rw [← same]; exact rsps.trans ready.rsps
  refine ⟨?_, vUop, rfl, rfl, congrArg (· ++ [r]) vRsps⟩
  rw [run_succ _ ((step_eq_exec ready.lines ready.free ready.inbox legal).trans ran),
    run_succ _ (step_take _ todo vUop vInbox)]
  rfl

/-! ## The commands of a message -/

theorem decode_push_word (b : Byte) : decode (.cmd (0x0200 + b.setWidth 16)) = .ok (.push b) := by
  obtain ⟨op, operand⟩ := cmd_fields_add_operand (op := 0x0200) rfl b
  have two : cmdOp (0x0200 : CmdWord) = 2 := rfl
  simp only [decode, decodeCmd, op, two, operand, BitVec.ofNat_toNat, BitVec.setWidth_eq]

theorem decode_final_word : decode (.cmd 0x0300) = .ok .final := by decide

theorem exec_push_accepted {s : State} (isOpen : s.phase = .absorb) (room : s.len ≠ 0xFFFFFFFFFFFFFFF8) (b : Byte) :
    exec (.push b) s = .next ((pushByte b s).giveRsp ⟨.ok, 0⟩) := by
  rcases execPush_cases b s with ⟨closed, -⟩ | ⟨-, full, -⟩ | ⟨-, -, answer⟩
  · exact absurd isOpen closed
  · exact absurd full room
  · exact answer

theorem exec_final_accepted {s : State} (isOpen : s.phase = .absorb) :
    exec .final s = .next ((finishMessage s).giveRsp ⟨.ok, 0⟩) := by
  rcases execFinal_cases s with ⟨closed, -⟩ | ⟨-, answer⟩
  · exact absurd isOpen closed
  · exact answer

theorem run_init {s : State} {todo : List HostEvent} {taken : List Response}
    (ready : Ready (.command 0x0100 :: .take :: todo) taken s) (wf : memWf s.blk = true) (closed : s.phase ≠ .absorb) :
    ∃ t, run 2 s = .next t ∧ Ready todo (taken ++ [⟨.ok, 0⟩]) t ∧ Absorbed [] t := by
  obtain ⟨runs, ready'⟩ := run_exchange ready decode_init_word (exec_init_of_not_open closed)
  exact ⟨_, runs, ready', ((absorbed_openMessage wf).answered _).setInbox todo⟩

theorem run_push {m : List Byte} {b : Byte} {s : State} {todo : List HostEvent} {taken : List Response}
    (ready : Ready (.command (0x0200 + b.setWidth 16) :: .take :: todo) taken s) (absorbed : Absorbed m s)
    (short : m.length + 1 < 2 ^ 61) :
    ∃ t, run 2 s = .next t ∧ Ready todo (taken ++ [⟨.ok, 0⟩]) t ∧ Absorbed (m ++ [b]) t := by
  have presented := absorbed.setInbox (.take :: todo)
  have room : (s.setInbox (.take :: todo)).len ≠ 0xFFFFFFFFFFFFFFF8 := presented.len ▸ bitLength_ne_max short
  obtain ⟨runs, ready'⟩ := run_exchange ready (decode_push_word b) (exec_push_accepted presented.phase room b)
  exact ⟨_, runs, ready', ((absorbed_pushByte presented (by omega) b).answered _).setInbox todo⟩

/-- The bytes `bs` pushed one after another, behind the message `m`. -/
theorem run_pushes (bs : List Byte) {m : List Byte} {s : State} {todo : List HostEvent} {taken : List Response}
    (ready : Ready (exchange (bs.map fun b => 0x0200 + b.setWidth 16) ++ todo) taken s) (absorbed : Absorbed m s)
    (short : m.length + bs.length < 2 ^ 61) :
    ∃ t, run (2 * bs.length) s = .next t ∧ Ready todo (taken ++ List.replicate bs.length ⟨.ok, 0⟩) t ∧
      Absorbed (m ++ bs) t := by
  induction bs generalizing m s taken with
  | nil => exact ⟨s, rfl, by simpa [exchange] using ready, by simpa using absorbed⟩
  | cons b bs ih =>
    rw [List.length_cons] at short
    obtain ⟨u, pushes, ready', absorbed'⟩ := run_push ready absorbed (by omega)
    obtain ⟨t, runs, ready'', absorbed''⟩ := ih ready' absorbed' (by simp; omega)
    refine ⟨t, ?_, ?_, ?_⟩
    · rw [List.length_cons, Nat.mul_succ, Nat.add_comm, run_add pushes, runs]
    · simpa [List.replicate_succ] using ready''
    · simpa using absorbed''

theorem run_final {m : List Byte} {s : State} {todo : List HostEvent} {taken : List Response}
    (ready : Ready (.command 0x0300 :: .take :: todo) taken s) (absorbed : Absorbed m s) (short : m.length < 2 ^ 61) :
    ∃ t, run 2 s = .next t ∧ Ready todo (taken ++ [⟨.ok, 0⟩]) t ∧ t.phase = .done ∧ t.h = sha1 m ∧
      t.len = bitLength m.length := by
  have presented := absorbed.setInbox (.take :: todo)
  obtain ⟨runs, ready'⟩ := run_exchange ready decode_final_word (exec_final_accepted presented.phase)
  exact ⟨_, runs, ready', by simp, by simpa using finishMessage_h_eq_sha1 presented short, by simpa using absorbed.len⟩

/-- Settles O47: `INIT` opens the empty message, each `PUSH` keeps `Absorbed` with one byte more, `FINAL` turns it into the
digest. -/
theorem messageCommandsComputeSha1 : Obligations.MessageCommandsComputeSha1 := by
  intro m s rest bound lines free wf closed offered
  have short : m.length < 2 ^ 61 := by omega
  have shape : s.inbox = .command 0x0100 :: .take ::
      (exchange (m.map fun b => 0x0200 + b.setWidth 16) ++ (.command 0x0300 :: .take :: rest)) := by
    rw [offered]
    simp [exchange]
  obtain ⟨s₁, opens, ready₁, absorbed₁⟩ := run_init ⟨lines, free, shape, rfl⟩ wf closed
  obtain ⟨s₂, pushes, ready₂, absorbed₂⟩ := run_pushes m ready₁ absorbed₁ (by simpa using short)
  rw [List.nil_append] at absorbed₂
  obtain ⟨t, closes, ready, done, digest, len⟩ := run_final ready₂ absorbed₂ short
  refine ⟨t, ?runs, done, digest, ?length, ready.inbox, ready.free, ?responses, fun i => ?read⟩
  case runs =>
    rw [show 2 * (m.length + 2) = 2 + (2 * m.length + 2) by omega, run_add opens, run_add pushes, closes]
  case length =>
    rw [len, bitLength_toNat short, Nat.mul_comm]
  case responses =>
    rw [ready.rsps, List.append_assoc, List.append_assoc, ← List.replicate_succ', List.singleton_append,
      ← List.replicate_succ]
  case read =>
    rw [exec_read_of_done done, digest]

end Sys2Proof.Machine
end

section
/-! The three checks of a command and their order (60_exceptions.md R172 to R175). -/

namespace Sys2Proof.Machine

/-! ## The conditions of the second and the third check -/

/-- A command word whose command is rejected in the phase `p`, by the list of 60_exceptions.md R173. -/
def WrongPhase (w : CmdWord) (p : Phase) : Prop :=
  (cmdOp w = 1 ∧ p = .absorb) ∨ ((cmdOp w = 2 ∨ cmdOp w = 3) ∧ p ≠ .absorb) ∨ (cmdOp w = 4 ∧ p ≠ .done)

/-- A `PUSH` at the longest message (60_exceptions.md R174). -/
def PushAtMax (w : CmdWord) (n : Len) : Prop := cmdOp w = 2 ∧ n = 0xFFFFFFFFFFFFFFF8

/-- The list of rejections is the table of admissions the other way round: for each command, row by row. -/
theorem wrongPhase_iff {w : CmdWord} {i : Instr} (legal : decode (.cmd w) = .ok i) (p : Phase) :
    WrongPhase w p ↔ admits p i = false := by
  rcases command_of_decode legal with ⟨rfl, op, -⟩ | ⟨b, rfl, op⟩ | ⟨rfl, op⟩ | ⟨k, rfl, op, -⟩ | ⟨rfl, op, -⟩ <;>
    cases p <;> simp [WrongPhase, op, admits]

theorem cmdOp_of_push {w : CmdWord} {b : Byte} (legal : decode (.cmd w) = .ok (.push b)) : cmdOp w = 2 := by
  simpa using command_of_decode legal

/-! ## The step that takes a legal word -/

/-- A legal word is rejected for its phase, else for the length, each time without effect; else it is answered `OK`. -/
theorem step_of_legal {s : State} {w : CmdWord} {rest : List HostEvent} (lines : s.uop = none) (free : s.pending = none)
    (offered : s.inbox = .command w :: rest) (legal : ¬illegalWord w) :
    (WrongPhase w s.phase → step s = .next ((s.setInbox rest).giveRsp ⟨.badPhase, 0⟩)) ∧
    (¬WrongPhase w s.phase → PushAtMax w s.len → step s = .next ((s.setInbox rest).giveRsp ⟨.lenOverflow, 0⟩)) ∧
    (¬WrongPhase w s.phase → ¬PushAtMax w s.len →
      ∃ t r, step s = .next t ∧ t.pending = some r ∧ t.rsps = s.rsps ∧ r.code = .ok) := by
  rcases step_command s w rest lines free offered with ⟨illegal, -⟩ | ⟨i, -, reads, answer⟩
  · exact absurd illegal legal
  · obtain ⟨t, r, ran, rsps, -, -, -, refusal, acceptance⟩ := exec_command reads (s.setInbox rest)
    rw [← answer] at ran
    rw [wrongPhase_iff reads]
    cases admitted : admits s.phase i with
    | false =>
      obtain ⟨rfl, rfl⟩ := refusal admitted
      exact ⟨fun _ => ran, fun right => absurd rfl right, fun right => absurd rfl right⟩
    | true =>
      rcases acceptance admitted with ⟨code, room, -⟩ | ⟨rfl, rfl, ⟨b, rfl⟩, full⟩
      · exact ⟨nofun, fun _ ⟨push, full⟩ => absurd full (room push),
          fun _ _ => ⟨_, r, ran, State.giveRsp_pending t r, rsps, code⟩⟩
      · exact ⟨nofun, fun _ _ => ran, fun _ room => absurd ⟨cmdOp_of_push reads, full⟩ room⟩

/-- Settles O35: an illegal word is a step of its own, and none of the three answers to a legal one is `ILLEGAL_CMD`. -/
theorem illegalWordsAnswered : Obligations.IllegalWordsAnswered := by
  intro s w rest lines free offered
  refine ⟨fun illegal => step_of_illegal lines free offered ((illegalWord_iff w).1 illegal), fun legal => ?_⟩
  obtain ⟨badPhase, overflow, accepted⟩ := step_of_legal lines free offered legal
  by_cases wrong : WrongPhase w s.phase
  · exact ⟨_, _, badPhase wrong, State.giveRsp_pending _ _, rfl, nofun⟩
  · by_cases full : PushAtMax w s.len
    · exact ⟨_, _, overflow wrong full, State.giveRsp_pending _ _, rfl, nofun⟩
    · obtain ⟨t, r, answer, pending, rsps, code⟩ := accepted wrong full
      exact ⟨t, r, answer, pending, rsps, by simp [code]⟩

/-- Settles O36: the first check is `step_of_illegal`, the other two are `step_of_legal`, with the operation read as field
`op`. -/
theorem checksInPriorityOrder : Obligations.ChecksInPriorityOrder := by
  intro s w rest lines free offered op badPhase overflow
  have wrong : badPhase ↔ WrongPhase w s.phase := by rw [WrongPhase, cmdOp_eq]
  have full : overflow ↔ PushAtMax w s.len := by rw [PushAtMax, cmdOp_eq]
  rw [wrong, full]
  refine ⟨fun illegal => step_of_illegal lines free offered ((illegalWord_iff w).1 illegal), ?_⟩
  simpa only [imp_and] using step_of_legal lines free offered

end Sys2Proof.Machine
end

section
/-! The two encodings (30_encoding.md sections 1 and 2): the rows of the command map by their fields, and that `encode` puts
together exactly the words that `decode` reads. -/

namespace Sys2Proof

/-! ## The command map by its fields -/

/-- The fields `op` and `x` of a command's row; a micro-operation has none. `decode_cmd_ok_iff` ties them to the decoder. -/
def cmdFields : Instr → Option (Nat × Nat)
  | .init => some (1, 0)
  | .push b => some (2, b.toNat)
  | .final => some (3, 0)
  | .read i => some (4, i.val)
  | .stat => some (5, 0)
  | .padPutb _ _ | .padMark _ | .padZero _ | .padLen | .wexLoad _ | .wexExp _ | .cmpInitv | .cmpRnd _ | .cmpFold => none

theorem cmdX_lt (w : CmdWord) : cmdX w < 256 := Nat.mod_lt _ (by decide)

/-- A word names a command exactly when it has the fields of the command's row. -/
theorem decode_cmd_ok_iff (w : CmdWord) (i : Instr) :
    decode (.cmd w) = .ok i ↔ cmdFields i = some (cmdOp w, cmdX w) := by
  have operand := cmdX_lt w
  constructor
  · intro named
    rcases decodeCmd_cases w with ⟨op, x, d⟩ | ⟨op, d⟩ | ⟨op, x, d⟩ | ⟨small, op, d⟩ | ⟨op, x, d⟩ | ⟨-, d⟩ <;>
      rw [d] at named <;> cases named <;> simp_all [cmdFields]
  · intro fields
    cases i <;> simp only [cmdFields, reduceCtorEq, Option.some.injEq, Prod.mk.injEq] at fields <;>
      obtain ⟨op, x⟩ := fields <;> simp [decode, decodeCmd, ← op, ← x, indexBelow]

/-! ## The words of the operations -/

theorem cmdOp_cmdWord {op x : Nat} (hop : op < 256) (hx : x < 256) : cmdOp (cmdWord op x) = op := by
  rw [cmdOp, cmdWord, BitVec.toNat_ofNat]
  omega

theorem cmdX_cmdWord {op x : Nat} (hx : x < 256) : cmdX (cmdWord op x) = x := by
  rw [cmdX, cmdWord, BitVec.toNat_ofNat]
  omega

/-- A command word is put together from its two fields. -/
theorem cmdWord_fields (w : CmdWord) : cmdWord (cmdOp w) (cmdX w) = w := by
  apply BitVec.eq_of_toNat_eq
  rw [cmdWord, BitVec.toNat_ofNat, cmdOp, cmdX]
  omega

theorem uopWord_toNat {unit op idx : Nat} (hunit : unit < 4) (hop : op < 4) (hidx : idx < 128) :
    (uopWord unit op idx).toNat = unit * 512 + op * 128 + idx := by
  rw [uopWord, BitVec.toNat_ofNat]
  omega

/-- A micro-operation word is put together from its three fields. -/
theorem uopWord_fields (w : UopWord) : uopWord (uopUnit w) (uopOp w) (uopIdx w) = w := by
  rw [uopWord, ← toNat_eq_uop_fields, BitVec.ofNat_toNat, BitVec.setWidth_eq]

theorem encode_of_cmdFields {i : Instr} {op x : Nat} (row : cmdFields i = some (op, x)) :
    encode i = .cmd (cmdWord op x) ∧ op < 256 ∧ x < 256 := by
  cases i <;> simp only [cmdFields, reduceCtorEq, Option.some.injEq, Prod.mk.injEq] at row <;> obtain ⟨rfl, rfl⟩ := row <;>
    refine ⟨rfl, ?_, ?_⟩ <;> omega

/-- The data byte that `encode` puts beside a micro-operation's word. -/
def uopData : Instr → Byte
  | .padPutb _ b => b
  | _ => 0

theorem encode_of_uopFields {i : Instr} {unit op idx : Nat} (row : uopFields i = some (unit, op, idx)) :
    encode i = .uop (uopWord unit op idx) (uopData i) ∧ unit < 4 ∧ op < 4 ∧ idx < 128 := by
  cases i <;> simp only [uopFields, reduceCtorEq, Option.some.injEq, Prod.mk.injEq] at row <;>
    obtain ⟨rfl, rfl, rfl⟩ := row <;> refine ⟨rfl, ?_, ?_, ?_⟩ <;> omega

/-- The command rows and the micro-operation rows are all the rows there are. -/
theorem cmdFields_or_uopFields (i : Instr) :
    (∃ op x, cmdFields i = some (op, x)) ∨
      ∃ unit op idx, uopFields i = some (unit, op, idx) := by
  cases i <;> simp [cmdFields, uopFields]

/-! ## Decoding what was encoded -/

theorem decode_cmdWord {i : Instr} {op x : Nat} (row : cmdFields i = some (op, x)) :
    decode (.cmd (cmdWord op x)) = .ok i := by
  obtain ⟨-, hop, hx⟩ := encode_of_cmdFields row
  rw [decode_cmd_ok_iff, cmdOp_cmdWord hop hx, cmdX_cmdWord hx, row]

theorem decode_uopWord {i : Instr} {unit op idx : Nat} {data : Byte} (row : uopFields i = some (unit, op, idx))
    (operand : uopOperandOk data i) : decode (.uop (uopWord unit op idx) data) = .ok i := by
  obtain ⟨-, hunit, hop, hidx⟩ := encode_of_uopFields row
  have number := uopWord_toNat hunit hop hidx
  rw [toNat_eq_uop_fields] at number
  have opBits : uopOp (uopWord unit op idx) < 4 := Nat.mod_lt _ (by decide)
  have idxBits : uopIdx (uopWord unit op idx) < 128 := Nat.mod_lt _ (by decide)
  rw [decode_uop_ok_iff, row, show uopUnit (uopWord unit op idx) = unit by omega,
    show uopOp (uopWord unit op idx) = op by omega, show uopIdx (uopWord unit op idx) = idx by omega]
  exact ⟨rfl, operand⟩

/-- A well-formed operation meets what the map asks besides its fields, with the data byte `encode` gives it. -/
theorem uopOperandOk_uopData {i : Instr} (wf : i.WellFormed) : uopOperandOk (uopData i) i := by
  cases i with
  | wexExp i => exact of_decide_eq_true (p := 16 ≤ i.val) wf
  | padPutb p b => rfl
  | _ => trivial

theorem decode_encode {i : Instr} (wf : i.WellFormed) : decode (encode i) = .ok i := by
  rcases cmdFields_or_uopFields i with ⟨op, x, row⟩ | ⟨unit, op, idx, row⟩
  · rw [(encode_of_cmdFields row).1, decode_cmdWord row]
  · rw [(encode_of_uopFields row).1, decode_uopWord row (uopOperandOk_uopData wf)]

/-! ## Encoding what was decoded -/

theorem wellFormed_of_uopOperandOk {data : Byte} {i : Instr} (operand : uopOperandOk data i) : i.WellFormed := by
  cases i with
  | wexExp i => exact decide_eq_true (p := 16 ≤ i.val) operand
  | _ => rfl

theorem command_of_cmdFields {i : Instr} {fields : Nat × Nat} (row : cmdFields i = some fields) :
    i.WellFormed ∧ i.isCommand = true := by
  cases i <;> simp [cmdFields, Instr.WellFormed, Instr.wellFormed, Instr.isCommand] at row ⊢

theorem not_command_of_uopFields {i : Instr} {fields : Nat × Nat × Nat} (row : uopFields i = some fields) :
    i.isCommand = false := by
  cases i <;> simp [uopFields, Instr.isCommand] at row ⊢

theorem encode_of_decode_cmd {w : CmdWord} {i : Instr} (legal : decode (.cmd w) = .ok i) :
    i.WellFormed ∧ i.isCommand = true ∧ encode i = .cmd w := by
  have row := (decode_cmd_ok_iff w i).1 legal
  obtain ⟨wf, kind⟩ := command_of_cmdFields row
  exact ⟨wf, kind, by rw [(encode_of_cmdFields row).1, cmdWord_fields]⟩

theorem encode_of_decode_uop {w : UopWord} {data : Byte} {i : Instr} (named : decode (.uop w data) = .ok i) :
    i.WellFormed ∧ i.isCommand = false ∧ encode i = .uop w (uopData i) := by
  obtain ⟨row, operand⟩ := (decode_uop_ok_iff w data i).1 named
  exact ⟨wellFormed_of_uopOperandOk operand, not_command_of_uopFields row,
    by rw [(encode_of_uopFields row).1, uopWord_fields]⟩

end Sys2Proof

namespace Sys2Proof.Machine

/-- Settles O2: the word of a row has the row's fields, and a well-formed operation has one of the rows. -/
theorem decodeOfEncodeIsIdentity : Obligations.DecodeOfEncodeIsIdentity := fun _ => decode_encode

/-- Settles O3: the fields of a word put the word together again; `PAD.PUTB` alone has its data byte from the lines. -/
theorem decodedWordsEncodeBack : Obligations.DecodedWordsEncodeBack := by
  refine ⟨fun w i => encode_of_decode_cmd, fun w data i named => ?_⟩
  obtain ⟨wf, kind, word⟩ := encode_of_decode_uop named
  refine ⟨wf, kind, uopData i, word, ?_⟩
  rintro p b rfl
  obtain rfl : b = data := ((decode_uop_ok_iff w data _).1 named).2
  exact ⟨rfl, rfl⟩

end Sys2Proof.Machine
end

section
/-! The command map by its match and mask columns (30_encoding.md R72). -/

namespace Sys2Proof

/-- Masking off the low `k` bits of a word rounds its number down to a multiple of `2 ^ k`. -/
theorem and_allOnes_shiftLeft_eq_iff {width : Nat} (w m : BitVec width) (k : Nat) :
    w &&& BitVec.allOnes width <<< k = m ↔ w.toNat / 2 ^ k * 2 ^ k = m.toNat := by
  have small : w.toNat / 2 ^ k * 2 ^ k < 2 ^ width := (Nat.div_mul_le_self _ _).trans_lt w.isLt
  rw [← BitVec.shiftLeft_ushiftRight, ← BitVec.toNat_inj, BitVec.toNat_shiftLeft, BitVec.toNat_ushiftRight,
    Nat.shiftRight_eq_div_pow, Nat.shiftLeft_eq, Nat.mod_eq_of_lt small]

/-- A row whose operand has `k` bits: the word is selected by its bits from `k` on, and the operand is read below them. -/
theorem decode_cmd_ok_iff_highMask (w : CmdWord) {i : Instr} {op x : Nat} (row : cmdFields i = some (op, x)) (k : Nat)
    (hk : k ≤ 8) (hx : x < 2 ^ k) :
    decode (.cmd w) = .ok i ↔
      w &&& BitVec.allOnes 16 <<< k = cmdWord op 0 ∧ (w.extractLsb' 0 k).toNat = x := by
  obtain ⟨-, hop, -⟩ := encode_of_cmdFields row
  have number : (cmdWord op 0).toNat = op * 256 := by
    rw [cmdWord, BitVec.toNat_ofNat]
    omega
  have operand : (w.extractLsb' 0 k).toNat = w.toNat % 2 ^ k := by
    rw [BitVec.extractLsb'_toNat, Nat.shiftRight_zero]
  rw [decode_cmd_ok_iff, row, and_allOnes_shiftLeft_eq_iff, number, operand, Option.some.injEq, Prod.mk.injEq, cmdOp, cmdX]
  interval_cases k <;> omega

/-- A row without an operand: the word is the row's. -/
theorem decode_cmd_ok_iff_fullMask (w : CmdWord) {i : Instr} {op : Nat} (row : cmdFields i = some (op, 0)) :
    decode (.cmd w) = .ok i ↔ w &&& BitVec.allOnes 16 <<< 0 = cmdWord op 0 := by
  rw [decode_cmd_ok_iff_highMask w row 0 (by decide) (by decide), and_iff_left]
  exact Nat.lt_one_iff.1 (w.extractLsb' 0 0).isLt

end Sys2Proof

namespace Sys2Proof.Machine

/-- Settles O4: each row is selected by the bits its operand leaves free. -/
theorem commandMapByMatchAndMask : Obligations.CommandMapByMatchAndMask := by
  refine fun w => ⟨?init, fun b => ?push, ?final, fun i => ?read, ?stat⟩
  case init => exact decode_cmd_ok_iff_fullMask w (i := .init) rfl
  case push =>
    refine (decode_cmd_ok_iff_highMask w (i := .push b) rfl 8 le_rfl b.isLt).trans (and_congr_right fun _ => ?_)
    rw [BitVec.toNat_inj, eq_comm]
  case final => exact decode_cmd_ok_iff_fullMask w (i := .final) rfl
  case read => exact decode_cmd_ok_iff_highMask w (i := .read i) rfl 3 (by decide) (by omega)
  case stat => exact decode_cmd_ok_iff_fullMask w (i := .stat) rfl

/-- Settles O1: twenty fixed words, read by the decoder. -/
theorem specWordsDecode : Obligations.SpecWordsDecode := by
  unfold Obligations.SpecWordsDecode
  decide

end Sys2Proof.Machine
end

section
/-! A micro-operation run by the machine and one issued by the sequencer (60_exceptions.md section 3), and what a step does with
a word on the micro-operation lines (30_encoding.md R77). -/

namespace Sys2Proof.Machine

/-! ## Micro-operations as operations -/

/-- Settles O22: each arm performs the unit operation that the sequencer issues. -/
theorem microOperationsRunAsIssued : Obligations.MicroOperationsRunAsIssued := by
  intro u s
  cases u with
  | exp i => exact dif_pos i.property
  | putb | mark | zero | len | load | initv | rnd | fold => rfl

theorem MicroOp.toInstr_wellFormed (u : MicroOp) : u.toInstr.WellFormed := by
  cases u with
  | exp i => exact decide_eq_true i.property
  | putb | mark | zero | len | load | initv | rnd | fold => rfl

theorem MicroOp.toInstr_isCommand (u : MicroOp) : u.toInstr.isCommand = false := by
  cases u <;> rfl

/-- The sequencer can issue everything that the lines can carry. -/
theorem exists_microOp_of_decode {w : UopWord} {data : Byte} {i : Instr} (named : decode (.uop w data) = .ok i) :
    ∃ u : MicroOp, u.toInstr = i := by
  obtain ⟨wf, kind, -⟩ := encode_of_decode_uop named
  cases i with
  | padPutb p b => exact ⟨.putb p b, rfl⟩
  | padMark p => exact ⟨.mark p, rfl⟩
  | padZero p => exact ⟨.zero p, rfl⟩
  | padLen => exact ⟨.len, rfl⟩
  | wexLoad k => exact ⟨.load k, rfl⟩
  | wexExp k => exact ⟨.exp ⟨k, of_decide_eq_true wf⟩, rfl⟩
  | cmpInitv => exact ⟨.initv, rfl⟩
  | cmpRnd t => exact ⟨.rnd t, rfl⟩
  | cmpFold => exact ⟨.fold, rfl⟩
  | init | push | final | read | stat => exact nomatch kind

/-! ## Reserved words -/

/-- The words that decode to nothing are the reserved ones. -/
theorem reservedWord_iff (w : UopWord) (data : Byte) :
    reservedWord w ↔ ∃ e, decode (.uop w data) = .error e := by
  unfold reservedWord
  rw [← uopUnit_eq, ← uopOp_eq, ← uopIdx_eq]
  rcases decodeUop_cases w data with ⟨p, unit, op, idx, d⟩ | ⟨p, unit, op, idx, d⟩ | ⟨p, unit, op, idx, d⟩ |
    ⟨unit, op, idx, d⟩ | ⟨i, unit, op, idx, d⟩ | ⟨i, low, unit, op, idx, d⟩ | ⟨unit, op, idx, d⟩ |
    ⟨t, unit, op, idx, d⟩ | ⟨unit, op, idx, d⟩ | ⟨reserved, d⟩ <;> simp [d] <;> omega

theorem step_of_uop_ok {s : State} {w : UopWord} {data : Byte} {i : Instr} (lines : s.uop = some (w, data))
    (named : decode (.uop w data) = .ok i) : step s = exec i (s.setUop none) := by
  simp only [step, lines, named]

theorem step_of_uop_error {s : State} {w : UopWord} {data : Byte} {e : DecodeError} (lines : s.uop = some (w, data))
    (unnamed : decode (.uop w data) = .error e) : step s = .refused .reservedUop := by
  simp only [step, lines, unnamed]

/-- Settles O6: the reserved words are those that decode to nothing; a word that decodes is one the sequencer can issue, and
those all run. -/
theorem reservedMicroOperationsRefused : Obligations.ReservedMicroOperationsRefused := by
  refine ⟨fun s w data lines reserved => ?refused, fun s w data lines free => ?run, fun u => ?issued⟩
  case refused =>
    obtain ⟨e, unnamed⟩ := (reservedWord_iff w data).1 reserved
    exact step_of_uop_error lines unnamed
  case run =>
    cases named : decode (.uop w data) with
    | error e => exact absurd ((reservedWord_iff w data).2 ⟨e, named⟩) free
    | ok i =>
      obtain ⟨u, rfl⟩ := exists_microOp_of_decode named
      exact ⟨_, (step_of_uop_ok lines named).trans (microOperationsRunAsIssued u _)⟩
  case issued =>
    have decodes := decode_encode u.toInstr_wellFormed
    cases word : encode u.toInstr with
    | cmd w =>
      rw [word] at decodes
      exact nomatch u.toInstr_isCommand.symm.trans (encode_of_decode_cmd decodes).2.1
    | uop w data =>
      rw [word] at decodes
      refine ⟨w, data, rfl, fun reserved => ?_⟩
      obtain ⟨e, unnamed⟩ := (reservedWord_iff w data).1 reserved
      exact nomatch decodes.symm.trans unnamed

end Sys2Proof.Machine
end

section
/-! `PUSH` and `FINAL` in full: their rejections, and the state that each leaves when it is accepted (40_padder.md section 2). -/

namespace Sys2Proof.Machine

/-! ## One block -/

/-- The state after `SEQ.BLOCK` on a block `block` in `BLK`, written with the update functions. -/
def compressed (block : Block) (s : State) : State :=
  let v := allRounds (expand block) (Vars.ofAccumulator s.h)
  ((s.setW (expand block)).setVars v.a v.b v.c v.d v.e).setH (compress s.h block)

theorem issue_seqBlock {s : State} {block : Block} (held : blkWords s.blk = block) :
    issue seqBlock s = compressed block s := by
  subst held
  exact blockSequenceCompresses s

/-! ## `PUSH` -/

theorem len_add_eight_toNat (n : Len) : (n + 8).toNat = (n.toNat + 8) % 2 ^ 64 := BitVec.toNat_add n 8

theorem exec_push_of_not_open {s : State} (closed : s.phase ≠ .absorb) (b : Byte) :
    exec (.push b) s = .next (s.giveRsp ⟨.badPhase, 0⟩) :=
  if_pos closed

theorem exec_push_at_max {s : State} (isOpen : s.phase = .absorb) (full : s.len = 0xFFFFFFFFFFFFFFF8) (b : Byte) :
    exec (.push b) s = .next (s.giveRsp ⟨.lenOverflow, 0⟩) :=
  (if_neg (not_not.2 isOpen)).trans (if_pos ((lenAtMax_iff _).2 full))

theorem pushBlockOps_of_room {p : Fin 64} (room : p.val ≠ 63) : pushBlockOps p = [] := if_neg (mt (blockFull_iff p).1 room)

theorem pushBlockOps_of_full {p : Fin 64} (full : p.val = 63) : pushBlockOps p = seqBlock := if_pos ((blockFull_iff p).2 full)

/-- A byte that does not fill the block is stored and counted. -/
theorem pushByte_of_room {s : State} (room : (pos s.len).val ≠ 63) (b : Byte) :
    pushByte b s = (s.setBlk (writeByte s.blk (pos s.len).val b)).setLen (s.len + 8) := by
  rw [pushByte, pushBlockOps_of_room room]
  rfl

/-- The byte that fills the block is stored and counted, and then the block is compressed. -/
theorem pushByte_of_full {s : State} (full : (pos s.len).val = 63) (b : Byte) :
    pushByte b s = compressed (blkWords (writeByte s.blk (pos s.len).val b))
      ((s.setBlk (writeByte s.blk (pos s.len).val b)).setLen (s.len + 8)) := by
  rw [pushByte, pushBlockOps_of_full full]
  exact issue_seqBlock rfl

/-- Settles O26: the phase, the length and the position decide; the memory is the one with the byte written. -/
theorem pushAppendsAByte : Obligations.PushAppendsAByte := by
  intro s b wf p
  have position : (pos s.len).val = p := pos_val s.len
  refine ⟨decode_push_word b, fun closed => exec_push_of_not_open closed b,
    fun isOpen full => exec_push_at_max isOpen full b, fun isOpen room => ?_⟩
  have accepted := exec_push_accepted isOpen room b
  refine ⟨writeByte s.blk p b, position ▸ writeByte_wf wf (pos s.len).isLt b, fun a => readByte_writeByte wf p a b,
    fun stored => ?_, fun full => ?_⟩
  · rw [accepted, pushByte_of_room (position.trans_ne stored), position]
  · rw [accepted, pushByte_of_full (position.trans full), position]
    rfl

/-! ## `FINAL` -/

theorem exec_final_of_not_open {s : State} (closed : s.phase ≠ .absorb) :
    exec .final s = .next (s.giveRsp ⟨.badPhase, 0⟩) :=
  if_pos closed

/-- With room for the length field one block is padded and compressed. -/
theorem finishMessage_oneBlock {s : State} (wf : memWf s.blk = true) (room : (pos s.len).val ≤ 55) :
    ∃ m, memWf m = true ∧ (∀ a < 64, readByte m a = withLengthField s.len (tailByte s.blk (pos s.len).val) a) ∧
      finishMessage s =
        (compressed (blockOfBytes (withLengthField s.len (tailByte s.blk (pos s.len).val))) (s.setBlk m)).setPhase .done := by
  obtain ⟨m, pads, mWf, bytes⟩ := issue_lastPadding s wf (pos s.len)
  refine ⟨m, mWf, bytes, ?_⟩
  rw [finishMessage, finalOps_oneBlock room, issue_append, pads, issue_seqBlock (blkWords_eq bytes)]

/-- What the first of two blocks leaves in `W` and `A` to `E` the second overwrites. -/
theorem compressed_compressed (first last : Block) (m m' : Mem) (s : State) :
    compressed last ((compressed first (s.setBlk m)).setBlk m') =
      compressed last ((s.setBlk m').setH (compress s.h first)) := by
  simp only [compressed, State.setBlk_h, State.setH_h]
  exact s.second_block ..

/-- Without that room a block with the tail is compressed, and then one with the length field. -/
theorem finishMessage_twoBlocks {s : State} (wf : memWf s.blk = true) (full : 56 ≤ (pos s.len).val) :
    ∃ m, memWf m = true ∧ (∀ a < 64, readByte m a = withLengthField s.len (fun _ => 0) a) ∧
      finishMessage s =
        (compressed (blockOfBytes (withLengthField s.len fun _ => 0))
          ((s.setBlk m).setH (compress s.h (blockOfBytes (tailByte s.blk (pos s.len).val))))).setPhase .done := by
  obtain ⟨m, pads, mWf, bytes⟩ := issue_firstPadding s wf (pos s.len)
  obtain ⟨m', pads', mWf', bytes'⟩ := issue_lengthOnly (issue seqBlock (s.setBlk m)) (issue_wf seqBlock mWf)
  rw [issue_len, State.setBlk_len] at bytes'
  refine ⟨m', mWf', bytes', ?_⟩
  rw [finishMessage, finalOps_twoBlocks full, issue_append, pads, issue_append, issue_append, pads',
    issue_seqBlock (blkWords_eq bytes'), issue_seqBlock (blkWords_eq bytes), compressed_compressed]

/-- Settles O27: one or two blocks by the position, padded as `issue_lastPadding` and its two companions say. -/
theorem finalPadsAndCompresses : Obligations.FinalPadsAndCompresses := by
  intro s wf p
  have position : (pos s.len).val = p := pos_val s.len
  refine ⟨decode_final_word, exec_final_of_not_open, fun isOpen room => ?_, fun isOpen full => ?_⟩
  · obtain ⟨m, mWf, bytes, left⟩ := finishMessage_oneBlock wf (position.trans_le room)
    rw [position] at bytes left
    refine ⟨m, mWf, bytes, ?_⟩
    rw [exec_final_accepted isOpen, left]
    rfl
  · obtain ⟨m, mWf, bytes, left⟩ := finishMessage_twoBlocks wf (full.trans_eq position.symm)
    rw [position] at left
    refine ⟨m, mWf, bytes, ?_⟩
    rw [exec_final_accepted isOpen, left]
    rfl

end Sys2Proof.Machine
end

section
/-! The invariant between commands (`State.Inv`): it holds at power-on and every step keeps it, so no run stops
(10_state.md sections 1 and 4, 60_exceptions.md section 3). -/

namespace Sys2Proof.Machine

/-- Settles O43: the power-on state lists nothing in `BLK`, is in `IDLE` and has given no response. -/
theorem invariantAtReset : Obligations.InvariantAtReset :=
  ⟨rfl, fun notIdle => absurd rfl notIdle, rfl, nofun⟩

/-! ## What keeps the invariant -/

section
variable {s : State} (inv : s.Inv)
include inv

theorem State.Inv.setInbox (todo : List HostEvent) : (s.setInbox todo).Inv :=
  ⟨inv.blkWf, inv.lenAligned, inv.noUop, inv.rejectedZero⟩

theorem State.Inv.takeRsp : s.takeRsp.Inv := by
  refine ⟨inv.blkWf, inv.lenAligned, inv.noUop, fun r given => inv.rejectedZero r ?_⟩
  simpa [State.responses] using given

theorem State.Inv.takeReset : (takeReset s).Inv := by
  refine ⟨takeReset_wf s, fun notIdle => absurd (takeReset_phase s) notIdle, inv.noUop, fun r given => inv.rejectedZero r ?_⟩
  have taken : r ∈ s.rsps := by simpa [State.responses] using given
  exact List.mem_append_left _ taken

/-- A response may be given if it carries data only when it is `OK`. -/
theorem State.Inv.giveRsp {r : Response} (zero : r.code ≠ .ok → r.data = 0) : (s.giveRsp r).Inv := by
  refine ⟨inv.blkWf, inv.lenAligned, inv.noUop, fun q given => ?_⟩
  have origin : q ∈ s.rsps ∨ q = r := by simpa [State.responses] using given
  rcases origin with taken | rfl
  · exact inv.rejectedZero q (List.mem_append_left _ taken)
  · exact zero

theorem State.Inv.openMessage : (openMessage s).Inv :=
  ⟨inv.blkWf, fun _ => rfl, inv.noUop, inv.rejectedZero⟩

theorem State.Inv.pushByte (isOpen : s.phase = .absorb) (b : Byte) : (pushByte b s).Inv := by
  refine ⟨pushByte_wf b inv.blkWf, fun _ => ?_, by simpa using inv.noUop, by simpa [State.responses] using inv.rejectedZero⟩
  have aligned : s.len.toNat % 8 = 0 := inv.lenAligned (by simp [isOpen])
  rw [pushByte_len, len_add_eight_toNat]
  omega

theorem State.Inv.finishMessage (isOpen : s.phase = .absorb) : (finishMessage s).Inv := by
  refine ⟨finishMessage_wf inv.blkWf, fun _ => ?_, by simpa using inv.noUop,
    by simpa [State.responses] using inv.rejectedZero⟩
  rw [finishMessage_len]
  exact inv.lenAligned (by simp [isOpen])

/-! ## A step keeps the invariant -/

/-- A command runs, whatever the phase, and keeps the invariant. -/
theorem State.Inv.exec {w : CmdWord} {i : Instr} (legal : decode (.cmd w) = .ok i) : ∃ t, exec i s = .next t ∧ t.Inv := by
  have rejected (code : Code) : (s.giveRsp ⟨code, 0⟩).Inv := inv.giveRsp fun _ => rfl
  rcases command_of_decode legal with ⟨rfl, -⟩ | ⟨b, rfl, -⟩ | ⟨rfl, -⟩ | ⟨k, rfl, -⟩ | ⟨rfl, -⟩
  · rcases execInit_cases s with ⟨-, answer⟩ | ⟨-, answer⟩
    · exact ⟨_, answer, rejected _⟩
    · exact ⟨_, answer, inv.openMessage.giveRsp nofun⟩
  · rcases execPush_cases b s with ⟨-, answer⟩ | ⟨-, -, answer⟩ | ⟨isOpen, -, answer⟩
    · exact ⟨_, answer, rejected _⟩
    · exact ⟨_, answer, rejected _⟩
    · exact ⟨_, answer, (inv.pushByte isOpen b).giveRsp nofun⟩
  · rcases execFinal_cases s with ⟨-, answer⟩ | ⟨isOpen, answer⟩
    · exact ⟨_, answer, rejected _⟩
    · exact ⟨_, answer, (inv.finishMessage isOpen).giveRsp nofun⟩
  · rcases execRead_cases k s with ⟨-, answer⟩ | ⟨-, answer⟩
    · exact ⟨_, answer, rejected _⟩
    · exact ⟨_, answer, inv.giveRsp nofun⟩
  · exact ⟨_, execStat_eq s, inv.giveRsp nofun⟩

/-- A step goes on, whatever the host does, and keeps the invariant. -/
theorem State.Inv.step : ∃ t, step s = .next t ∧ t.Inv := by
  rcases step_cases s with ⟨w, data, i, lines, -⟩ | ⟨w, data, e, lines, -⟩ | ⟨r, -, -, -, answer⟩ | ⟨r, l, -, -, -, answer⟩ |
    ⟨r, l, -, -, -, answer⟩ | ⟨-, -, -, answer⟩ | ⟨l, -, -, -, answer⟩ | ⟨l, -, -, -, answer⟩ |
    ⟨w, l, i, -, -, -, legal, answer⟩ | ⟨w, l, e, -, -, -, -, answer⟩
  · exact nomatch inv.noUop.symm.trans lines
  · exact nomatch inv.noUop.symm.trans lines
  · exact ⟨s, answer, inv⟩
  · exact ⟨_, answer, inv.takeRsp.setInbox l⟩
  · exact ⟨_, answer, (inv.setInbox l).takeReset⟩
  · exact ⟨s, answer, inv⟩
  · exact ⟨_, answer, inv.setInbox l⟩
  · exact ⟨_, answer, (inv.setInbox l).takeReset⟩
  · obtain ⟨t, ran, inv'⟩ := (inv.setInbox l).exec legal
    exact ⟨t, answer.trans ran, inv'⟩
  · exact ⟨_, answer, (inv.setInbox l).giveRsp fun _ => rfl⟩

end

/-- Settles O44: `State.Inv.step`, whose next state is the only one. -/
theorem stepKeepsInvariant : Obligations.StepKeepsInvariant := by
  intro s t inv ran
  obtain ⟨t', ran', inv'⟩ := inv.step
  obtain rfl : t' = t := Host.Outcome.next.inj (ran'.symm.trans ran)
  exact inv'

/-- Settles O45: by induction on the number of steps. -/
theorem soundRunsNeverStop : Obligations.SoundRunsNeverStop := by
  intro n
  induction n with
  | zero => exact fun s inv => ⟨s, rfl, inv⟩
  | succ n ih =>
    intro s inv
    obtain ⟨u, first, inv'⟩ := inv.step
    rw [run_succ n first]
    exact ih u inv'

/-! ## The length -/

/-- A length that is a multiple of 8 is at most the largest legal one. -/
theorem len_le_max {n : Len} (aligned : n.toNat % 8 = 0) : n.toNat ≤ 2 ^ 64 - 8 := by omega

/-- Settles O30: below the largest length there is room for 8 more bits, at it `PUSH` is rejected. -/
theorem lengthNeverWraps : Obligations.LengthNeverWraps := by
  intro s b inv
  refine ⟨fun closed => ⟨_, exec_init_of_not_open closed, rfl⟩, fun isOpen => ⟨?bound, fun below => ?grows, fun atMax => ?full⟩⟩
  case bound => exact len_le_max (inv.lenAligned (by simp [isOpen]))
  case grows =>
    have room : s.len ≠ 0xFFFFFFFFFFFFFFF8 := by rintro full; simp [full] at below
    refine ⟨_, exec_push_accepted isOpen room b, ?_⟩
    rw [State.giveRsp_len, pushByte_len, len_add_eight_toNat]
    omega
  case full => exact exec_push_at_max isOpen (BitVec.eq_of_toNat_eq atMax) b

end Sys2Proof.Machine
end

section
/-! One step: what it runs, the wait for the host and the reset event (43_driver.md R160, 60_exceptions.md section 6,
70_reset_and_hazards.md R190). -/

namespace Sys2Proof.Machine

/-! ## The operation that a step runs -/

/-- The state from which a placed word is run. -/
def presented (s : State) (i : Instr) : State := if i.isCommand then (s.setUop none).takeRsp else s.setUop none

/-- A placed word that names an operation is run by the next step. -/
theorem step_placeWord {op : OpWord} {i : Instr} (named : decode op = .ok i) (s : State) :
    step (placeWord s op) = exec i (presented s i) := by
  cases op with
  | cmd w =>
    have ran : step (placeWord s (.cmd w)) = exec i ((placeWord s (.cmd w)).setInbox s.inbox) :=
      step_eq_exec rfl rfl rfl named
    rw [ran, presented, if_pos (encode_of_decode_cmd named).2.1]
    rfl
  | uop w data =>
    have ran : step (placeWord s (.uop w data)) = exec i ((placeWord s (.uop w data)).setUop none) :=
      step_of_uop_ok rfl named
    rw [ran, presented, if_neg (by simp [(encode_of_decode_uop named).2.1])]
    rfl

theorem decode_tableOpWord {nbits w : Nat} {i : Instr} (named : decodeTableWord nbits w = some i) :
    decode (tableOpWord nbits w) = .ok i := by
  unfold decodeTableWord at named
  split at named
  · rwa [← Option.some.inj named]
  · exact nomatch named

/-- Settles O32: the three ways a word comes to a step. -/
theorem stepRunsTheDecodedOperation : Obligations.StepRunsTheDecodedOperation :=
  ⟨fun _ _ _ _ lines named => step_of_uop_ok lines named,
    fun _ _ _ _ lines free offered legal => step_eq_exec lines free offered legal,
    fun s _ _ _ named => step_placeWord (decode_tableOpWord named) s⟩

/-! ## Waiting for the host -/

/-- The state after a step while a response stands on the channel. -/
def afterStanding (s : State) : Standing → State
  | .wait => s
  | .taken rest => s.takeRsp.setInbox rest
  | .reset rest => takeReset (s.setInbox rest)

theorem step_of_pending {s : State} {r : Response} (lines : s.uop = none) (standsThere : s.pending = some r) :
    step s = .next (afterStanding s (standing s.inbox)) := by
  rcases step_standing lines standsThere with ⟨found, answer⟩ | ⟨l, found, answer⟩ | ⟨l, found, answer⟩ <;>
    rw [found, answer] <;> rfl

theorem step_of_nothing_offered {s : State} (lines : s.uop = none) (nothing : s.inbox = []) : step s = .next s := by
  cases pending : s.pending with
  | none => simp only [step, lines, pending, nothing]
  | some r => exact step_waits_for_take [] lines pending nothing

/-- Settles O33: with nothing offered the step is the wait, whether or not a response stands on the channel. -/
theorem waitingHoldsTheState : Obligations.WaitingHoldsTheState := fun _ => step_of_nothing_offered

/-- Settles O34: the three things the host can do behind the commands it has presented. -/
theorem noCommandUntilResponseTaken : Obligations.NoCommandUntilResponseTaken := by
  intro s r ws rest lines standsThere
  have answer := step_of_pending lines standsThere
  refine ⟨step_waits_for_take ws lines standsThere, fun offered => ?take, fun offered => ?reset⟩
  case take =>
    rw [offered, standing_commands_take] at answer
    refine ⟨_, answer, rfl, rfl, ?_⟩
    simp [afterStanding, standsThere]
  case reset =>
    rw [offered, standing_commands_reset] at answer
    exact ⟨_, answer, rfl, rfl, rfl, rfl⟩

/-! ## The reset event -/

/-- Settles O41: the reset is `takeReset`; at power-on nothing is offered. -/
theorem resetGoesToIdle : Obligations.ResetGoesToIdle := by
  refine ⟨fun s rest lines offered => ?_, rfl, rfl, rfl, rfl, rfl, step_of_nothing_offered rfl rfl⟩
  exact ⟨_, step_reset s rest lines offered, takeReset_phase _, rfl, rfl, rfl, lines,
    exec_read_of_not_done (by simp)⟩

end Sys2Proof.Machine
end

section
/-! Commands that change nothing: the rejected ones, and in `DONE` all but `INIT` (60_exceptions.md R170, 10_state.md
section 2). -/

namespace Sys2Proof.Machine

/-- Settles O37: each of the three rejections gives its response and nothing else. -/
theorem rejectionChangesNothing : Obligations.RejectionChangesNothing := by
  intro s t w rest r lines free offered ran given rejected
  have only (code : Code) (answer : step s = .next ((s.setInbox rest).giveRsp ⟨code, 0⟩)) :
      r.data = 0 ∧ t = (s.setInbox rest).giveRsp r := by
    obtain rfl : (s.setInbox rest).giveRsp ⟨code, 0⟩ = t := Host.Outcome.next.inj (answer.symm.trans ran)
    obtain rfl : ⟨code, 0⟩ = r := Option.some.inj given
    exact ⟨rfl, rfl⟩
  by_cases illegal : illegalWord w
  · exact only _ (step_of_illegal lines free offered ((illegalWord_iff w).1 illegal))
  · obtain ⟨badPhase, overflow, accepted⟩ := step_of_legal lines free offered illegal
    by_cases wrong : WrongPhase w s.phase
    · exact only _ (badPhase wrong)
    · by_cases full : PushAtMax w s.len
      · exact only _ (overflow wrong full)
      · obtain ⟨t', r', answer, given', -, ok⟩ := accepted wrong full
        obtain rfl : t' = t := Host.Outcome.next.inj (answer.symm.trans ran)
        obtain rfl : r' = r := Option.some.inj (given'.symm.trans given)
        exact absurd ok rejected

theorem exec_in_done {s : State} {w : CmdWord} {i : Instr} (done : s.phase = .done) (legal : decode (.cmd w) = .ok i)
    (notInit : i ≠ .init) : ∃ r, exec i s = .next (s.giveRsp r) := by
  rcases command_of_decode legal with ⟨rfl, -⟩ | ⟨b, rfl, -⟩ | ⟨rfl, -⟩ | ⟨k, rfl, -⟩ | ⟨rfl, -⟩
  · exact absurd rfl notInit
  · exact ⟨_, exec_push_of_not_open (by simp [done]) b⟩
  · exact ⟨_, exec_final_of_not_open (by simp [done])⟩
  · exact ⟨_, exec_read_of_done done k⟩
  · exact ⟨_, exec_stat s⟩

/-- Settles O42: in `DONE`, `PUSH` and `FINAL` are rejected, `READ` and `STAT` only answer. -/
theorem digestImmutableUntilInit : Obligations.DigestImmutableUntilInit := by
  intro s t w rest lines free done offered notInitWord ran
  have only {r : Response} (answer : step s = .next ((s.setInbox rest).giveRsp r)) :
      ∃ r, t = (s.setInbox rest).giveRsp r :=
    ⟨r, Host.Outcome.next.inj (ran.symm.trans answer)⟩
  rcases step_command s w rest lines free offered with ⟨-, answer⟩ | ⟨i, -, legal, answer⟩
  · exact only answer
  · have notInit : i ≠ .init := by
      rintro rfl
      have word : cmdOp w = 1 ∧ w = 0x0100 := by simpa using command_of_decode legal
      exact notInitWord word.2
    obtain ⟨r, ran'⟩ := exec_in_done (s := s.setInbox rest) done legal notInit
    exact only (answer.trans ran')

end Sys2Proof.Machine
end

section
/-! What two states in the middle of the same message share, and that neither `PUSH` nor `FINAL` looks at anything else
(40_padder.md section 4). -/

namespace Sys2Proof.Machine

/-- Two states hold the same open message: the same `H`, the same `LEN` and the same bytes below `LEN[8:3]`. -/
structure SameMessage (s t : State) : Prop where
  h : s.h = t.h
  len : s.len = t.len
  blk : ∀ a < (pos s.len).val, readByte s.blk a = readByte t.blk a

theorem sameMessage_openMessage (s t : State) : SameMessage (openMessage s) (openMessage t) :=
  ⟨rfl, rfl, fun a below => absurd below (by simp [openMessage, pos_val])⟩

section
variable {s t : State} (same : SameMessage s t)
include same

/-! The channels are no part of the message. -/

theorem SameMessage.setInbox (todo : List HostEvent) : SameMessage (s.setInbox todo) (t.setInbox todo) :=
  ⟨same.h, same.len, same.blk⟩

theorem SameMessage.giveRsp (r : Response) : SameMessage (s.giveRsp r) (t.giveRsp r) :=
  ⟨same.h, same.len, same.blk⟩

theorem SameMessage.takeRsp : SameMessage s.takeRsp t.takeRsp :=
  ⟨same.h, same.len, same.blk⟩

theorem SameMessage.tailByte_eq : tailByte s.blk (pos s.len).val = tailByte t.blk (pos s.len).val := by
  funext j
  unfold tailByte
  split_ifs with below
  · exact same.blk j below
  · rfl
  · rfl

end

theorem blkWords_congr {m m' : Mem} (alike : ∀ a < 64, readByte m a = readByte m' a) : blkWords m = blkWords m' :=
  (blkWords_eq alike).trans (blkWords_eq fun _ _ => rfl).symm

theorem pos_add_eight (n : Len) : (pos (n + 8)).val = ((pos n).val + 1) % 64 := by
  rw [pos_val, pos_val, len_add_eight_toNat]
  omega

section
variable {s t : State} (same : SameMessage s t) (wfLeft : memWf s.blk = true) (wfRight : memWf t.blk = true)
include same wfLeft wfRight

/-- With the same byte stored at `LEN[8:3]` the blocks agree there too. -/
theorem SameMessage.readByte_stored (b : Byte) {a : Nat} (upTo : a ≤ (pos s.len).val) :
    readByte (writeByte s.blk (pos s.len).val b) a = readByte (writeByte t.blk (pos s.len).val b) a := by
  rw [readByte_writeByte wfLeft, readByte_writeByte wfRight]
  split_ifs with new
  · rfl
  · exact same.blk a (lt_of_le_of_ne upTo new)

theorem SameMessage.pushByte (b : Byte) : SameMessage (pushByte b s) (pushByte b t) := by
  refine ⟨?_, by rw [pushByte_len, pushByte_len, same.len], fun a below => ?_⟩
  · rw [pushByte_h, pushByte_h, ← same.len, ← same.h]
    split_ifs with full
    · rw [blkWords_congr fun a inside => same.readByte_stored wfLeft wfRight b (by omega)]
    · rfl
  · rw [pushByte_len, pos_add_eight] at below
    rw [pushByte_blk, pushByte_blk, ← same.len]
    exact same.readByte_stored wfLeft wfRight b (by omega)

theorem SameMessage.finishMessage_h : (finishMessage s).h = (finishMessage t).h := by
  rcases le_or_gt (pos s.len).val 55 with room | full
  · rw [finishMessage_h_oneBlock wfLeft room, finishMessage_h_oneBlock wfRight (same.len ▸ room), ← same.len, ← same.h,
      same.tailByte_eq]
  · rw [finishMessage_h_twoBlocks wfLeft full, finishMessage_h_twoBlocks wfRight (same.len ▸ full), ← same.len, ← same.h,
      same.tailByte_eq]

end

/-- Settles O48: both states answer in the same way, and what an accepted command leaves depends on the message alone. -/
theorem staleBytesNeverEnterABlock : Obligations.StaleBytesNeverEnterABlock := by
  intro s t i wfLeft wfRight openLeft openRight h len blk command
  have same : SameMessage s t := ⟨h, len, blk⟩
  rcases command with rfl | ⟨b, rfl⟩
  · exact ⟨_, _, exec_final_accepted openLeft, exec_final_accepted openRight, same.finishMessage_h wfLeft wfRight,
      by simpa using len, by simp, fun isOpen => by simp at isOpen⟩
  · by_cases full : s.len = 0xFFFFFFFFFFFFFFF8
    · exact ⟨_, _, exec_push_at_max openLeft full b, exec_push_at_max openRight (len ▸ full) b, h, len,
        openLeft.trans openRight.symm, fun _ => blk⟩
    · have after := same.pushByte wfLeft wfRight b
      exact ⟨_, _, exec_push_accepted openLeft full b, exec_push_accepted openRight (len ▸ full) b, after.h, after.len,
        by simp [openLeft, openRight], fun _ => after.blk⟩

end Sys2Proof.Machine
end

section
/-! Two states that agree on what can still reach a response (`Agree`), step by step (10_state.md R41, 43_driver.md R156). The
responses that the host took before the two states began to agree may differ. -/

namespace Sys2Proof.Machine

/-- `Agree`, but for the responses taken: since the host had taken `old` from the one and `old'` from the other, it has taken the
same from both. `agree_iff` ties it to `Agree`. -/
structure AgreeSince (old old' : List Response) (s t : State) : Prop where
  phase : s.phase = t.phase
  inbox : s.inbox = t.inbox
  pending : s.pending = t.pending
  rsps : ∃ new, s.rsps = old ++ new ∧ t.rsps = old' ++ new
  noUopLeft : s.uop = none
  noUopRight : t.uop = none
  wfLeft : memWf s.blk = true
  wfRight : memWf t.blk = true
  message : s.phase = .absorb → SameMessage s t
  digest : s.phase = .done → s.h = t.h

theorem agree_iff (s t : State) : Agree s t ↔ AgreeSince [] [] s t := by
  constructor
  · intro agree
    exact ⟨agree.phase, agree.inbox, agree.pending, ⟨t.rsps, agree.rsps, rfl⟩, agree.noUopLeft, agree.noUopRight,
      agree.wfLeft, agree.wfRight,
      fun isOpen => ⟨agree.openH isOpen, agree.openLen isOpen, agree.openBlk isOpen⟩, agree.doneH⟩
  · intro agree
    obtain ⟨new, left, right⟩ := agree.rsps
    exact ⟨agree.phase, agree.inbox, agree.pending, left.trans right.symm, agree.noUopLeft, agree.noUopRight,
      agree.wfLeft, agree.wfRight, fun isOpen => (agree.message isOpen).h, fun isOpen => (agree.message isOpen).len,
      fun isOpen => (agree.message isOpen).blk, agree.digest⟩

/-! ## What keeps agreement -/

section
variable {old old' : List Response} {s t : State} (agree : AgreeSince old old' s t)
include agree

theorem AgreeSince.setInbox (todo : List HostEvent) : AgreeSince old old' (s.setInbox todo) (t.setInbox todo) :=
  { agree with inbox := rfl, message := fun isOpen => (agree.message isOpen).setInbox todo }

theorem AgreeSince.giveRsp (r : Response) : AgreeSince old old' (s.giveRsp r) (t.giveRsp r) :=
  { agree with pending := rfl, message := fun isOpen => (agree.message isOpen).giveRsp r }

theorem AgreeSince.takeRsp : AgreeSince old old' s.takeRsp t.takeRsp := by
  obtain ⟨new, left, right⟩ := agree.rsps
  refine { agree with
    pending := rfl
    rsps := ⟨new ++ s.pending.toList, ?_, ?_⟩
    message := fun isOpen => (agree.message isOpen).takeRsp }
  · rw [State.takeRsp_rsps, left, List.append_assoc]
  · rw [State.takeRsp_rsps, right, agree.pending, List.append_assoc]

/-- After a reset no register needs to agree. -/
theorem AgreeSince.takeReset : AgreeSince old old' (takeReset s) (takeReset t) :=
  ⟨rfl, agree.inbox, rfl, agree.rsps, agree.noUopLeft, agree.noUopRight, takeReset_wf s, takeReset_wf t, nofun, nofun⟩

theorem AgreeSince.openMessage : AgreeSince old old' (openMessage s) (openMessage t) :=
  { agree with phase := rfl, message := fun _ => sameMessage_openMessage s t, digest := nofun }

theorem AgreeSince.pushByte (isOpen : s.phase = .absorb) (b : Byte) :
    AgreeSince old old' (pushByte b s) (pushByte b t) where
  phase := by simpa using agree.phase
  inbox := by simpa using agree.inbox
  pending := by simpa using agree.pending
  rsps := by simpa using agree.rsps
  noUopLeft := by simpa using agree.noUopLeft
  noUopRight := by simpa using agree.noUopRight
  wfLeft := pushByte_wf b agree.wfLeft
  wfRight := pushByte_wf b agree.wfRight
  message _ := (agree.message isOpen).pushByte agree.wfLeft agree.wfRight b
  digest done := by simp [isOpen] at done

theorem AgreeSince.finishMessage (isOpen : s.phase = .absorb) :
    AgreeSince old old' (finishMessage s) (finishMessage t) where
  phase := rfl
  inbox := by simpa using agree.inbox
  pending := by simpa using agree.pending
  rsps := by simpa using agree.rsps
  noUopLeft := by simpa using agree.noUopLeft
  noUopRight := by simpa using agree.noUopRight
  wfLeft := finishMessage_wf agree.wfLeft
  wfRight := finishMessage_wf agree.wfRight
  message := nofun
  digest _ := (agree.message isOpen).finishMessage_h agree.wfLeft agree.wfRight

/-! ## A step keeps agreement -/

/-- A command runs in both states and keeps agreement: the phase they share decides, with `LEN` in an open message. -/
theorem AgreeSince.exec {w : CmdWord} {i : Instr} (legal : decode (.cmd w) = .ok i) :
    ∃ s' t', exec i s = .next s' ∧ exec i t = .next t' ∧ AgreeSince old old' s' t' := by
  rcases command_of_decode legal with ⟨rfl, -⟩ | ⟨b, rfl, -⟩ | ⟨rfl, -⟩ | ⟨k, rfl, -⟩ | ⟨rfl, -⟩
  · by_cases isOpen : s.phase = .absorb
    · exact ⟨_, _, exec_init_of_open isOpen, exec_init_of_open (agree.phase ▸ isOpen), agree.giveRsp _⟩
    · exact ⟨_, _, exec_init_of_not_open isOpen, exec_init_of_not_open (agree.phase ▸ isOpen), agree.openMessage.giveRsp _⟩
  · by_cases isOpen : s.phase = .absorb
    · have len : s.len = t.len := (agree.message isOpen).len
      by_cases full : s.len = 0xFFFFFFFFFFFFFFF8
      · exact ⟨_, _, exec_push_at_max isOpen full b, exec_push_at_max (agree.phase ▸ isOpen) (len ▸ full) b, agree.giveRsp _⟩
      · exact ⟨_, _, exec_push_accepted isOpen full b, exec_push_accepted (agree.phase ▸ isOpen) (len ▸ full) b,
          (agree.pushByte isOpen b).giveRsp _⟩
    · exact ⟨_, _, exec_push_of_not_open isOpen b, exec_push_of_not_open (agree.phase ▸ isOpen) b, agree.giveRsp _⟩
  · by_cases isOpen : s.phase = .absorb
    · exact ⟨_, _, exec_final_accepted isOpen, exec_final_accepted (agree.phase ▸ isOpen),
        (agree.finishMessage isOpen).giveRsp _⟩
    · exact ⟨_, _, exec_final_of_not_open isOpen, exec_final_of_not_open (agree.phase ▸ isOpen), agree.giveRsp _⟩
  · by_cases done : s.phase = .done
    · refine ⟨_, _, exec_read_of_done done k, exec_read_of_done (agree.phase ▸ done) k, ?_⟩
      rw [agree.digest done]
      exact agree.giveRsp _
    · exact ⟨_, _, exec_read_of_not_done done k, exec_read_of_not_done (agree.phase ▸ done) k, agree.giveRsp _⟩
  · refine ⟨_, _, exec_stat s, exec_stat t, ?_⟩
    rw [agree.phase]
    exact agree.giveRsp _

theorem AgreeSince.afterStanding (st : Standing) : AgreeSince old old' (afterStanding s st) (afterStanding t st) := by
  cases st with
  | wait => exact agree
  | taken rest => exact agree.takeRsp.setInbox rest
  | reset rest => exact (agree.setInbox rest).takeReset

theorem AgreeSince.step : ∃ s' t', step s = .next s' ∧ step t = .next t' ∧ AgreeSince old old' s' t' := by
  have inbox := agree.inbox
  have pending := agree.pending
  have left := agree.noUopLeft
  have right := agree.noUopRight
  cases standsThere : s.pending with
  | some r =>
    refine ⟨_, _, step_of_pending left standsThere, step_of_pending right (pending ▸ standsThere), ?_⟩
    rw [← inbox]
    exact agree.afterStanding _
  | none =>
    have free : t.pending = none := pending ▸ standsThere
    cases offered : s.inbox with
    | nil => exact ⟨s, t, step_of_nothing_offered left offered, step_of_nothing_offered right (inbox ▸ offered), agree⟩
    | cons event rest =>
      have offered' : t.inbox = event :: rest := inbox ▸ offered
      cases event with
      | take => exact ⟨_, _, step_take s rest left offered, step_take t rest right offered', agree.takeRsp.setInbox rest⟩
      | reset => exact ⟨_, _, step_reset s rest left offered, step_reset t rest right offered', (agree.setInbox rest).takeReset⟩
      | command w =>
        cases names : decode (.cmd w) with
        | error e =>
          exact ⟨_, _, step_of_illegal left standsThere offered names, step_of_illegal right free offered' names,
            (agree.setInbox rest).giveRsp _⟩
        | ok i =>
          rw [step_eq_exec left standsThere offered names, step_eq_exec right free offered' names]
          exact (agree.setInbox rest).exec names

end

/-- Settles O49: agreement is `AgreeSince` from the very first response on. -/
theorem stepKeepsAgreement : Obligations.StepKeepsAgreement := by
  intro s t agree
  obtain ⟨s', t', left, right, agree'⟩ := ((agree_iff s t).1 agree).step
  exact ⟨s', t', left, right, (agree_iff s' t').2 agree'⟩

/-! ## Runs -/

theorem AgreeSince.run {old old' : List Response} (n : Nat) {s t : State} (agree : AgreeSince old old' s t) :
    ∃ s' t', run n s = .next s' ∧ run n t = .next t' ∧ AgreeSince old old' s' t' := by
  induction n generalizing s t with
  | zero => exact ⟨s, t, rfl, rfl, agree⟩
  | succ n ih =>
    obtain ⟨u, v, left, right, agree'⟩ := agree.step
    rw [run_succ n left, run_succ n right]
    exact ih agree'

/-- Settles O50: in `IDLE` no register needs to agree. -/
theorem unspecifiedValuesNeverReachAResponse : Obligations.UnspecifiedValuesNeverReachAResponse := by
  intro n s t idleLeft idleRight left right wfLeft wfRight inbox pending rsps
  have agree : Agree s t :=
    ⟨idleLeft.trans idleRight.symm, inbox, pending, rsps, left, right, wfLeft, wfRight, by simp [idleLeft],
      by simp [idleLeft], by simp [idleLeft], by simp [idleLeft]⟩
  obtain ⟨s', t', runLeft, runRight, since⟩ := ((agree_iff s t).1 agree).run n
  have agree' := (agree_iff s' t').2 since
  exact ⟨s', t', runLeft, runRight, agree'.pending, agree'.rsps⟩

/-- The states in which two messages have just been opened agree, whatever came before. -/
theorem agreeSince_opened {s t : State} {rest : List HostEvent} (left : s.uop = none) (right : t.uop = none)
    (wfLeft : memWf s.blk = true) (wfRight : memWf t.blk = true) :
    AgreeSince s.rsps t.rsps ((openMessage (s.setInbox rest)).giveRsp ⟨.ok, 0⟩)
      ((openMessage (t.setInbox rest)).giveRsp ⟨.ok, 0⟩) :=
  ⟨rfl, rfl, rfl, ⟨[], (List.append_nil _).symm, (List.append_nil _).symm⟩, left, right, wfLeft, wfRight,
    fun _ => (sameMessage_openMessage _ _).giveRsp _, nofun⟩

theorem step_init {s : State} {rest : List HostEvent} (lines : s.uop = none) (free : s.pending = none)
    (closed : s.phase ≠ .absorb) (offered : s.inbox = .command 0x0100 :: rest) :
    step s = .next ((openMessage (s.setInbox rest)).giveRsp ⟨.ok, 0⟩) :=
  (step_eq_exec lines free offered decode_init_word).trans (exec_init_of_not_open closed)

/-- Settles O51: the `INIT` makes the two states agree; before it none of them has taken a response more. -/
theorem messagesDoNotInfluenceEachOther : Obligations.MessagesDoNotInfluenceEachOther := by
  intro n s t rest closedLeft closedRight left right freeLeft freeRight wfLeft wfRight offeredLeft offeredRight
  cases n with
  | zero => exact ⟨s, t, [], rfl, rfl, freeLeft.trans freeRight.symm, by simp, by simp⟩
  | succ n =>
    rw [run_succ n (step_init left freeLeft closedLeft offeredLeft),
      run_succ n (step_init right freeRight closedRight offeredRight)]
    obtain ⟨s', t', runLeft, runRight, agree⟩ := (agreeSince_opened left right wfLeft wfRight).run n
    obtain ⟨new, newLeft, newRight⟩ := agree.rsps
    exact ⟨s', t', new, runLeft, runRight, agree.pending, newLeft, newRight⟩

end Sys2Proof.Machine
end

section
/-! The remaining micro-operations, one by one: `PAD.PUTB`, `PAD.MARK`, `PAD.ZERO`, `WEX.EXP`, `CMP.INITV` and `CMP.RND`
(40_padder.md section 3, 41_schedule.md R121, 42_compress.md section 2). -/

namespace Sys2Proof.Machine

/-! ## A byte stored by the padder -/

/-- Storing a byte changes `BLK` alone, and there that byte alone. -/
theorem exists_stored {s : State} (wf : memWf s.blk = true) (p : Fin 64) (b : Byte) :
    ∃ m : Mem, (.next (s.setBlk (writeByte s.blk p.val b)) : Result) = .next (s.setBlk m) ∧ memWf m = true ∧
      ∀ a : Nat, readByte m a = if a = p.val then b else readByte s.blk a :=
  ⟨_, rfl, writeByte_wf wf p.isLt b, fun a => readByte_writeByte wf p.val a b⟩

/-- Settles O11: each of the three writes its byte at `p`. -/
theorem padderBytesStored : Obligations.PadderBytesStored := fun _ p wf =>
  ⟨fun b => ⟨decode_uopWord (i := .padPutb p b) rfl rfl, exists_stored wf p b⟩,
    ⟨decode_uopWord (i := .padMark p) rfl trivial, exists_stored wf p 0x80⟩,
    ⟨decode_uopWord (i := .padZero p) rfl trivial, exists_stored wf p 0x00⟩⟩

/-! ## `WEX.EXP` -/

theorem exec_wexExp {i : Fin 80} (low : 16 ≤ i.val) (s : State) :
    exec (.wexExp i) s = .next (s.setW (unitExp i low s).w) :=
  dif_pos low

theorem exec_wexExp_reserved {i : Fin 80} (below : i.val < 16) (s : State) : exec (.wexExp i) s = .refused .reservedUop :=
  dif_neg (by omega)

theorem unitExp_w_self {i : Fin 80} (low : 16 ≤ i.val) (s : State) : (unitExp i low s).w[i.val] = extensionWord s.w i low :=
  Vector.getElem_set_self i.isLt

theorem unitExp_w_ne {i j : Fin 80} (low : 16 ≤ i.val) (ne : j.val ≠ i.val) (s : State) :
    (unitExp i low s).w[j.val] = s.w[j.val] :=
  Vector.getElem_set_ne i.isLt j.isLt ne.symm

/-- Settles O14: the index decides whether the extension word is computed. -/
theorem scheduleExpansionWord : Obligations.ScheduleExpansionWord := fun s i =>
  ⟨fun low => ⟨decode_uopWord (i := .wexExp i) rfl low, _, exec_wexExp low s, unitExp_w_self low s,
      fun _ ne => unitExp_w_ne low ne s⟩,
    fun below => exec_wexExp_reserved below s⟩

/-! ## `CMP.INITV` and `CMP.RND` -/

/-- Settles O17: the five words are loaded at once. -/
theorem workingVariablesLoaded : Obligations.WorkingVariablesLoaded := fun _ =>
  ⟨decode_uopWord (i := .cmpInitv) (data := 0) rfl trivial, rfl⟩

/-- The carries of the five-word sum are lost. -/
theorem roundTemp_toNat (t : Fin 80) (wt a b c d e : Word) :
    (roundTemp t wt a b c d e).toNat = ((rotl a 5 (by decide)).toNat + (roundF t b c d).toNat + e.toNat +
      (roundConstant t).toNat + wt.toNat) % 2 ^ 32 := by
  simp only [roundTemp, add32_toNat, Nat.mod_add_mod]

/-- Settles O18: `TEMP` as a sum of numbers, the other four moved on. -/
theorem roundMixesTheWorkingVariables : Obligations.RoundMixesTheWorkingVariables := fun s t =>
  ⟨decode_uopWord (i := .cmpRnd t) rfl trivial, roundTemp t s.w[t.val] s.a s.b s.c s.d s.e, rfl,
    roundTemp_toNat t s.w[t.val] s.a s.b s.c s.d s.e⟩

end Sys2Proof.Machine
end

section
/-! `expand` is linear over XOR (41_schedule.md section 1). -/

namespace Sys2Proof.Machine

theorem rotl_xor (x y : Word) (n : Nat) (h : 0 < n ∧ n < 32) : rotl (x ^^^ y) n h = rotl x n h ^^^ rotl y n h := by
  apply BitVec.eq_of_getLsbD_eq
  intro i hi
  simp only [BitVec.getLsbD_xor, rotl_getLsbD _ n h i hi]

/-- Settles O16: the XOR of two expansions begins with the XOR of the blocks and obeys the recurrence, which has one
solution. -/
theorem expansionIsLinear : Obligations.ExpansionIsLinear := by
  intro x y i
  have solution := expand_unique (Vector.ofFn fun k : Fin 16 => x[k.val] ^^^ y[k.val])
    (Vector.ofFn fun k : Fin 80 => (expand x)[k.val] ^^^ (expand y)[k.val]) (fun k hk => ?first)
    (fun k low hk => ?recurrence) i.val i.isLt
  · rw [← solution, Vector.getElem_ofFn]
  case first =>
    rw [Vector.getElem_ofFn, Vector.getElem_ofFn, expand_lo x k hk, expand_lo y k hk]
  case recurrence =>
    simp only [Vector.getElem_ofFn]
    rw [expand_hi x k low hk, expand_hi y k low hk, ← rotl_xor]
    congr 1
    ac_rfl

end Sys2Proof.Machine
end

section
/-! The sequences that the sequencer issues: their words, their lengths, and another order of one block (43_driver.md section 1,
70_reset_and_hazards.md R198, 20_memory.md R63). -/

namespace Sys2Proof.Machine

/-! ## The words of `SEQ.BLOCK` -/

theorem map_finRange_eq_map_range {α : Type} {n : Nat} {f : Fin n → α} {g : Nat → α} (same : ∀ i : Fin n, f i = g i.val) :
    (List.finRange n).map f = (List.range n).map g := by
  rw [← List.map_coe_finRange_eq_range, List.map_map]
  exact List.map_congr_left fun i _ => same i

/-- The word of an operation without a data byte, from its number. -/
def plainUop (n : Nat) : OpWord := .uop (BitVec.ofNat 11 n) 0

theorem loadOps_words : loadOps.map (fun u => encode u.toInstr) = (List.range 16).map fun k => plainUop (0x200 + k) := by
  rw [loadOps, List.map_map]
  exact map_finRange_eq_map_range fun _ => rfl

theorem expOps_words : expOps.map (fun u => encode u.toInstr) = (List.range 64).map fun k => plainUop (0x290 + k) := by
  rw [expOps, List.map_map]
  exact map_finRange_eq_map_range fun k => congrArg plainUop (Nat.add_assoc 0x280 16 k.val).symm

theorem rndOps_words : rndOps.map (fun u => encode u.toInstr) = (List.range 80).map fun k => plainUop (0x480 + k) := by
  rw [rndOps, List.map_map]
  exact map_finRange_eq_map_range fun _ => rfl

/-- Settles O21: part by part, each index in turn. -/
theorem blockSequenceWords : Obligations.BlockSequenceWords := by
  unfold Obligations.BlockSequenceWords
  rw [seqBlock, List.map_append, List.map_append, List.map_append, List.map_append, loadOps_words, expOps_words,
    rndOps_words]
  simp only [List.map_append, List.map_map]
  rfl

/-! ## Counts -/

theorem seqBlock_length : seqBlock.length = 162 := by
  simp [seqBlock, loadOps, expOps, rndOps]

theorem seqBlock_count_fold : seqBlock.count .fold = 1 := by decide

theorem countP_range_interval (lo hi n : Nat) :
    (List.range n).countP (fun k => decide (lo ≤ k) && decide (k ≤ hi)) = min n (hi + 1) - lo := by
  induction n with
  | zero => simp
  | succ n ih =>
    rw [List.range_succ, List.countP_append, ih, List.countP_singleton]
    by_cases inside : lo ≤ n ∧ n ≤ hi
    · rw [if_pos (by simpa using inside)]
      omega
    · rw [if_neg (by simpa using inside)]
      omega

theorem zeroOps_length (lo hi : Nat) : (zeroOps lo hi).length = min 64 (hi + 1) - lo := by
  rw [zeroOps, List.length_map, ← List.countP_eq_length_filter, ← countP_range_interval, ← List.map_coe_finRange_eq_range,
    List.countP_map]
  rfl

theorem zeroOps_count_fold (lo hi : Nat) : (zeroOps lo hi).count .fold = 0 := by
  simp [List.count_eq_zero, mem_zeroOps]

/-- Settles O24: the sequences split by the position, and each part is counted. -/
theorem microOperationCounts : Obligations.MicroOperationCounts := by
  refine ⟨seqBlock_length, fun p b => ?pushLength, fun p => ?finalLength, fun p b => ?pushFolds, fun p => ?finalFolds⟩
  case pushLength =>
    split_ifs with full
    · rw [pushBlockOps_of_full full, List.length_append, seqBlock_length]
      rfl
    · rw [pushBlockOps_of_room full]
      rfl
  case pushFolds =>
    split_ifs with full
    · rw [pushBlockOps_of_full full, List.count_append, seqBlock_count_fold]
      rfl
    · rw [pushBlockOps_of_room full]
      rfl
  case finalLength =>
    split_ifs with room
    · simp only [finalOps_oneBlock room, List.length_append, List.length_singleton, zeroOps_length, seqBlock_length]
      omega
    · simp only [finalOps_twoBlocks (show 56 ≤ p.val by omega), List.length_append, List.length_singleton, zeroOps_length,
        seqBlock_length]
      omega
  case finalFolds =>
    split_ifs with room
    · simp only [finalOps_oneBlock room, List.count_append, zeroOps_count_fold, seqBlock_count_fold]
      rfl
    · simp only [finalOps_twoBlocks (show 56 ≤ p.val by omega), List.count_append, zeroOps_count_fold, seqBlock_count_fold]
      rfl

/-! ## Another order of one block -/

/-- The micro-operation that computes schedule word `t`. -/
def wordOp (t : Fin 80) : MicroOp :=
  if h : t.val < 16 then .load ⟨t.val, h⟩ else .exp ⟨t, by omega⟩

theorem roundWithItsWord_eq (t : Fin 80) : roundWithItsWord t = [wordOp t, .rnd t] := by
  unfold roundWithItsWord wordOp
  split_ifs <;> rfl

theorem map_wordOp : (List.finRange 80).map wordOp = loadOps ++ expOps := by decide

/-- The value that `wordOp t` writes into `W[t]`, from the schedule and the block. -/
def scheduleWord (t : Fin 80) (w : Vector Word 80) (blk : Mem) : Word :=
  if h : t.val < 16 then readWord blk (4 * t.val) else extensionWord w t (by omega)

/-- It reads nothing but `W` and `BLK` and writes nothing but `W[t]`. -/
theorem perform_wordOp (t : Fin 80) (s : State) :
    (wordOp t).perform s = s.setW (s.w.set t.val (scheduleWord t s.w s.blk)) := by
  unfold wordOp scheduleWord
  split_ifs <;> rfl

/-- A schedule word may be computed before or after the round of another one. -/
theorem wordOp_rnd_comm {i t : Fin 80} (ne : i ≠ t) (s : State) :
    (wordOp i).perform ((MicroOp.rnd t).perform s) = (MicroOp.rnd t).perform ((wordOp i).perform s) := by
  have kept : (s.w.set i.val (scheduleWord i s.w s.blk))[t.val] = s.w[t.val] :=
    Vector.getElem_set_ne i.isLt t.isLt (Fin.val_ne_of_ne ne)
  rw [perform_wordOp, perform_wordOp]
  simp only [MicroOp.perform, unitRnd, State.setW_w, kept]
  rfl

theorem wordOp_initv_comm (i : Fin 80) (s : State) :
    (wordOp i).perform (MicroOp.initv.perform s) = MicroOp.initv.perform ((wordOp i).perform s) := by
  rw [perform_wordOp, perform_wordOp]
  rfl

/-- What commutes with each of some micro-operations commutes with all of them one after another. -/
theorem issue_comm {u : MicroOp} (us : List MicroOp)
    (comm : ∀ v ∈ us, ∀ s, v.perform (u.perform s) = u.perform (v.perform s)) (s : State) :
    issue us (u.perform s) = u.perform (issue us s) := by
  induction us generalizing s with
  | nil => rfl
  | cons v us ih =>
    rw [issue_cons, issue_cons, comm v (by simp), ih fun x hx => comm x (by simp [hx])]

/-- Schedule words computed each just before its round, or all before all rounds. -/
theorem issue_roundsWithTheirWords {ts : List (Fin 80)} (distinct : ts.Nodup) (s : State) :
    issue (ts.flatMap roundWithItsWord) s = issue (ts.map .rnd) (issue (ts.map wordOp) s) := by
  induction ts generalizing s with
  | nil => rfl
  | cons t ts ih =>
    obtain ⟨new, distinct⟩ := List.nodup_cons.1 distinct
    have comm : ∀ v ∈ ts.map wordOp, ∀ s, v.perform ((MicroOp.rnd t).perform s) = (MicroOp.rnd t).perform (v.perform s) := by
      intro v hv s
      obtain ⟨i, hi, rfl⟩ := List.mem_map.1 hv
      exact wordOp_rnd_comm (ne_of_mem_of_not_mem hi new) s
    rw [List.flatMap_cons, roundWithItsWord_eq, issue_append, issue_cons, issue_cons, issue_nil, ih distinct,
      issue_comm _ comm, List.map_cons, List.map_cons, issue_cons, issue_cons]

/-- Settles O23: the schedule words are moved before the rounds and before `CMP.INITV`. -/
theorem interleavedOrderAgrees : Obligations.InterleavedOrderAgrees := by
  intro s
  have comm : ∀ v ∈ (List.finRange 80).map wordOp, ∀ s,
      v.perform (MicroOp.initv.perform s) = MicroOp.initv.perform (v.perform s) := by
    intro v hv s
    obtain ⟨i, -, rfl⟩ := List.mem_map.1 hv
    exact wordOp_initv_comm i s
  calc issue interleavedBlock s
      = issue [.fold] (issue rndOps (issue ((List.finRange 80).map wordOp) (MicroOp.initv.perform s))) := by
        rw [interleavedBlock, issue_append, issue_append, issue_roundsWithTheirWords (List.nodup_finRange 80)]
        rfl
    _ = issue [.fold] (issue rndOps (issue [.initv] (issue (loadOps ++ expOps) s))) := by
        rw [issue_comm _ comm, map_wordOp]
        rfl
    _ = issue seqBlock s := by
        rw [seqBlock, issue_append _ [.fold], issue_append _ rndOps, issue_append _ [.initv]]

/-! ## The fields of `LEN` -/

theorem nblk_eq (n : Len) : nblk n = n.toNat / 512 := by
  rw [nblk, BitVec.extractLsb'_toNat, Nat.shiftRight_eq_div_pow]
  omega

/-- Settles O31: both fields as quotients. -/
theorem positionIsByteCountMod64 : Obligations.PositionIsByteCountMod64 := by
  intro n aligned
  refine ⟨pos_val n, ?_⟩
  rw [nblk_eq, pos_val]
  omega

end Sys2Proof.Machine
end

section
/-! The command words of the assembly lines (30_encoding.md R83, R84). -/

namespace Sys2Proof.Machine

theorem cmdWord_toNat {op x : Nat} (hop : op < 256) (hx : x < 256) : (cmdWord op x).toNat = op * 256 + x := by
  rw [cmdWord, BitVec.toNat_ofNat]
  omega

/-- The word of `PUSH b` as a sum of words. -/
theorem cmdWord_push (b : Byte) : cmdWord 2 b.toNat = 0x0200 + b.setWidth 16 := by
  apply BitVec.eq_of_toNat_eq
  have op : (0x0200 : CmdWord).toNat = 0x0200 := rfl
  rw [cmdWord_toNat (by decide) b.isLt, BitVec.toNat_add, op, BitVec.toNat_setWidth]
  omega

theorem printable_iff (c : Char) : printable c = true ↔ 0x20 ≤ c.toNat ∧ c.toNat ≤ 0x7E := by
  simp [printable]

/-! ## Lines of one word -/

theorem assemble_push {n : Nat} (inRange : n ≤ 255) :
    ∃ w : CmdWord, (AsmLine.push n).assemble = some [w] ∧ w.toNat = 0x0200 + n ∧
      decode (.cmd w) = .ok (.push (BitVec.ofNat 8 n)) := by
  have row : cmdFields (.push (BitVec.ofNat 8 n)) = some (2, n) := by
    rw [cmdFields, BitVec.toNat_ofNat, Nat.mod_eq_of_lt (by omega)]
  exact ⟨cmdWord 2 n, if_pos inRange, cmdWord_toNat (by decide) (by omega), decode_cmdWord row⟩

theorem assemble_read {i : Nat} (h : i < 5) :
    ∃ w : CmdWord, (AsmLine.read i).assemble = some [w] ∧ w.toNat = 0x0400 + i ∧ decode (.cmd w) = .ok (.read ⟨i, h⟩) :=
  ⟨cmdWord 4 i, if_pos (by omega), cmdWord_toNat (by decide) (by omega), decode_cmdWord (i := .read ⟨i, h⟩) rfl⟩

theorem assemble_word {n : Nat} (inRange : n ≤ 0xFFFF) :
    ∃ w : CmdWord, (AsmLine.word n).assemble = some [w] ∧ w.toNat = n :=
  ⟨BitVec.ofNat 16 n, if_pos inRange, by rw [BitVec.toNat_ofNat, Nat.mod_eq_of_lt (by omega)]⟩

/-! ## Lines of a message -/

theorem messageWords_eq (bytes : List Byte) :
    messageWords bytes = [0x0100] ++ bytes.map (fun b => 0x0200 + b.setWidth 16) ++ [0x0300] := by
  simp only [messageWords, cmdWord_push]
  rfl

/-- The word that pushes a printable character has the character's code in its operand. -/
theorem push_word_of_printable {c : Char} (inRange : 0x20 ≤ c.toNat ∧ c.toNat ≤ 0x7E) :
    (cmdWord 2 (BitVec.ofNat 8 c.toNat).toNat).toNat = 0x0200 + c.toNat := by
  rw [BitVec.toNat_ofNat, Nat.mod_eq_of_lt (by omega), cmdWord_toNat (by decide) (by omega)]

theorem assemble_msg {text : List Char} (inRange : ∀ c ∈ text, 0x20 ≤ c.toNat ∧ c.toNat ≤ 0x7E) :
    ∃ ws : List CmdWord, (AsmLine.msg text).assemble = some ([0x0100] ++ ws ++ [0x0300]) ∧
      ws.map (fun w => w.toNat) = text.map fun c => 0x0200 + c.toNat := by
  have allPrintable : text.all printable = true := List.all_eq_true.2 fun c hc => (printable_iff c).2 (inRange c hc)
  refine ⟨(text.map fun c : Char => BitVec.ofNat 8 c.toNat).map fun b : Byte => cmdWord 2 b.toNat, if_pos allPrintable, ?_⟩
  rw [List.map_map, List.map_map]
  exact List.map_congr_left fun c hc => push_word_of_printable (inRange c hc)

theorem assemble_msg_unprintable {text : List Char} {c : Char} (hc : c ∈ text) (outside : c.toNat < 0x20 ∨ 0x7E < c.toNat) :
    (AsmLine.msg text).assemble = none := by
  refine if_neg fun all => ?_
  have inside := (printable_iff c).1 (List.all_eq_true.1 all c hc)
  omega

theorem assemble_fill (n : Nat) (b : Byte) :
    (AsmLine.fill n b.toNat).assemble = some (List.replicate n (0x0200 + b.setWidth 16)) := by
  rw [← cmdWord_push]
  exact if_pos (Nat.le_of_lt_succ b.isLt)

/-- Settles O52: line by line; an operand out of range fails the test of its row. -/
theorem assemblyLinesAsTabled : Obligations.AssemblyLinesAsTabled :=
  ⟨rfl, rfl, rfl, fun _ => ⟨assemble_push, fun large => if_neg (not_le.2 large)⟩,
    fun _ => ⟨assemble_read, fun large => if_neg (not_le.2 large)⟩,
    fun _ => ⟨assemble_word, fun large => if_neg (not_le.2 large)⟩, fun _ => assemble_msg,
    fun _ _ => assemble_msg_unprintable, fun bytes => congrArg some (messageWords_eq bytes), assemble_fill,
    fun _ _ large => if_neg (not_le.2 large), rfl⟩

end Sys2Proof.Machine
end
